-- ==== Sys2Proof/Word.lean ====
section
/-! DEFINITION. The word, byte and register-index types (spec 00_scope.md R5: XLEN = 32, NREGS = 32, ILEN = 32). -/

namespace Sys2Proof

/-- A 32-bit pattern: register, program counter, address, data word or instruction word (R7, R80). -/
abbrev Word := BitVec 32

/-- One byte of a store's listing (R46: the image's words are little-endian). -/
abbrev Byte := BitVec 8

/-- A general register index, 0 to 31 (R10). -/
abbrev RegIdx := Fin 32

end Sys2Proof
end

