-- ==== Sys2Proof/Syntax.lean ====
section
/-! DEFINITION. The instructions, one constructor per row of spec/opcode_table.json (30_encoding.md R100), and the names
the Decoder, the ALU and the BranchUnit use for classes, operations and conditions. -/

namespace Sys2Proof

/-- The 31 instructions (R3, R100). Operands are the fields of R82: register indices, the 12-bit `imm_I` / `imm_S`, the
13-bit `imm_B`, the 21-bit `imm_J`, the 20 bits `inst[31:12]` of `imm_U`, the 5-bit shift amount (R83 to R88). -/
inductive Instr where
  | lui   (rd : RegIdx) (imm20 : BitVec 20)
  | auipc (rd : RegIdx) (imm20 : BitVec 20)
  | jal   (rd : RegIdx) (offset : BitVec 21)
  | jalr  (rd rs1 : RegIdx) (imm : BitVec 12)
  | beq   (rs1 rs2 : RegIdx) (offset : BitVec 13)
  | bne   (rs1 rs2 : RegIdx) (offset : BitVec 13)
  | blt   (rs1 rs2 : RegIdx) (offset : BitVec 13)
  | bge   (rs1 rs2 : RegIdx) (offset : BitVec 13)
  | bltu  (rs1 rs2 : RegIdx) (offset : BitVec 13)
  | bgeu  (rs1 rs2 : RegIdx) (offset : BitVec 13)
  | lw    (rd rs1 : RegIdx) (imm : BitVec 12)
  | sw    (rs1 rs2 : RegIdx) (imm : BitVec 12)
  | addi  (rd rs1 : RegIdx) (imm : BitVec 12)
  | slti  (rd rs1 : RegIdx) (imm : BitVec 12)
  | sltiu (rd rs1 : RegIdx) (imm : BitVec 12)
  | xori  (rd rs1 : RegIdx) (imm : BitVec 12)
  | ori   (rd rs1 : RegIdx) (imm : BitVec 12)
  | andi  (rd rs1 : RegIdx) (imm : BitVec 12)
  | slli  (rd rs1 : RegIdx) (shamt : BitVec 5)
  | srli  (rd rs1 : RegIdx) (shamt : BitVec 5)
  | srai  (rd rs1 : RegIdx) (shamt : BitVec 5)
  | add   (rd rs1 rs2 : RegIdx)
  | sub   (rd rs1 rs2 : RegIdx)
  | sll   (rd rs1 rs2 : RegIdx)
  | slt   (rd rs1 rs2 : RegIdx)
  | sltu  (rd rs1 rs2 : RegIdx)
  | xor   (rd rs1 rs2 : RegIdx)
  | srl   (rd rs1 rs2 : RegIdx)
  | sra   (rd rs1 rs2 : RegIdx)
  | or    (rd rs1 rs2 : RegIdx)
  | and   (rd rs1 rs2 : RegIdx)
  deriving DecidableEq, Repr

/-- The nine opcode classes the Decoder knows (R91). -/
inductive OpClass where
  | load | imm | auipc | store | reg | lui | branch | jalr | jal
  deriving DecidableEq, Repr

/-- `itype`, the class tag that steers next-pc and write-back (R9, R90, R92; seven values, conflict C4). -/
inductive IType where
  | alu | j | jr | br | st | ld | auipc
  deriving DecidableEq, Repr

/-- The ten ALU operations (R94, R120). -/
inductive AluOp where
  | add | sub | sll | slt | sltu | xor | srl | sra | or | and
  deriving DecidableEq, Repr

/-- The six branch conditions (R95, R170). -/
inductive BranchCond where
  | eq | ne | lt | ge | ltu | geu
  deriving DecidableEq, Repr

/-- The Decoder's output record (R90). As R98 advises, a register field is present exactly when its enable is 1
(`rs1_en` is `rs1.isSome`); `imm` is absent for class REG, where it is not meaningful (R89). -/
structure DecodedInstruction where
  itype      : IType
  rs1        : Option RegIdx
  rs2        : Option RegIdx
  rd         : Option RegIdx
  funct      : BitVec 4
  imm        : Option Word
  memOpEn    : Bool
  memOpStore : Bool
  deriving DecidableEq, Repr

/-- What the hardware makes of a fetched word: one of the 31 instructions, or one of the three kinds of word that have no
row in the table, each by name. All of them retire on the hardware (R102, R103, R105). -/
inductive Decoded where
  | instr (i : Instr)
  /-- An ALU selector that names no operation, with the destination register (R102). -/
  | reservedAlu (rd : RegIdx) (funct : BitVec 4)
  /-- A branch condition that names no comparison, with the branch offset (R103). -/
  | reservedBranch (offset : BitVec 13)
  /-- An opcode that is none of the nine classes (R105). -/
  | unknownOpcode (opcode : BitVec 7)
  deriving DecidableEq, Repr

/-- One row of the opcode table: the canonical `match` and `mask`, and the bits the hardware's Decoder examines (R100). -/
structure OpcodeRow where
  mnemonic : String
  matched  : Word
  mask     : Word
  hwMask   : Word
  deriving DecidableEq, Repr

end Sys2Proof
end

