-- ==== Sys2Proof/WellFormed.lean ====
section
/-! DEFINITION. Which instructions have an encoding. The operand types carry every range of spec 30_encoding.md R99 but
one: branch and jump offsets are even (R85, R87). -/

namespace Sys2Proof

/-- R85: the B immediate has bit 0 equal to 0. -/
def branchOffsetOk (offset : BitVec 13) : Bool := !offset.getLsbD 0

/-- R87: the J immediate has bit 0 equal to 0. -/
def jumpOffsetOk (offset : BitVec 21) : Bool := !offset.getLsbD 0

/-- The fields are in the range R99 gives them. -/
def Instr.wellFormed : Instr → Bool
  | .lui _ _       => true
  | .auipc _ _     => true
  | .jal _ off     => jumpOffsetOk off
  | .jalr _ _ _    => true
  | .beq _ _ off   => branchOffsetOk off
  | .bne _ _ off   => branchOffsetOk off
  | .blt _ _ off   => branchOffsetOk off
  | .bge _ _ off   => branchOffsetOk off
  | .bltu _ _ off  => branchOffsetOk off
  | .bgeu _ _ off  => branchOffsetOk off
  | .lw _ _ _      => true
  | .sw _ _ _      => true
  | .addi _ _ _    => true
  | .slti _ _ _    => true
  | .sltiu _ _ _   => true
  | .xori _ _ _    => true
  | .ori _ _ _     => true
  | .andi _ _ _    => true
  | .slli _ _ _    => true
  | .srli _ _ _    => true
  | .srai _ _ _    => true
  | .add _ _ _     => true
  | .sub _ _ _     => true
  | .sll _ _ _     => true
  | .slt _ _ _     => true
  | .sltu _ _ _    => true
  | .xor _ _ _     => true
  | .srl _ _ _     => true
  | .sra _ _ _     => true
  | .or _ _ _      => true
  | .and _ _ _     => true

end Sys2Proof
end

