-- ==== Sys2Proof/Decode.lean ====
section
/-! DEFINITION. The Decoder (spec 30_encoding.md): fields, immediates, the opcode map, the decoded record, the reading of
any word as an instruction or a named reserved word, and the encoder written from the same formats.
The numeric opcode and funct values are the spec's, which marks them general knowledge (log entry 15). -/

namespace Sys2Proof

/-! ## Fields and immediates (R81 to R88) -/

def opcodeOf (w : Word) : BitVec 7 := w.extractLsb' 0 7
def funct3Of (w : Word) : BitVec 3 := w.extractLsb' 12 3
/-- `inst[30]`, the sign/alt bit (R93). -/
def altOf (w : Word) : BitVec 1 := w.extractLsb' 30 1
def rdOf  (w : Word) : RegIdx := (w.extractLsb' 7 5).toFin
def rs1Of (w : Word) : RegIdx := (w.extractLsb' 15 5).toFin
def rs2Of (w : Word) : RegIdx := (w.extractLsb' 20 5).toFin
/-- R88: the shift amount comes from the rs2 field. -/
def shamtOf (w : Word) : BitVec 5 := w.extractLsb' 20 5
/-- R83: `imm[11:0] = inst[31:20]`. -/
def immIOf (w : Word) : BitVec 12 := w.extractLsb' 20 12
/-- R84: `imm[11:5] = inst[31:25]`, `imm[4:0] = inst[11:7]`. -/
def immSOf (w : Word) : BitVec 12 := w.extractLsb' 25 7 ++ w.extractLsb' 7 5
/-- R85: `imm[12|10:5|4:1|11] = inst[31|30:25|11:8|7]`, `imm[0] = 0`. -/
def immBOf (w : Word) : BitVec 13 :=
  w.extractLsb' 31 1 ++ w.extractLsb' 7 1 ++ w.extractLsb' 25 6 ++ w.extractLsb' 8 4 ++ 0#1
/-- R86: `imm[31:12] = inst[31:12]`. -/
def immUOf (w : Word) : BitVec 20 := w.extractLsb' 12 20
/-- R87: `imm[20|10:1|11|19:12] = inst[31|30:21|20|19:12]`, `imm[0] = 0`. -/
def immJOf (w : Word) : BitVec 21 :=
  w.extractLsb' 31 1 ++ w.extractLsb' 12 8 ++ w.extractLsb' 20 1 ++ w.extractLsb' 21 10 ++ 0#1

/-! The 32-bit values of the immediates (R83 to R88). -/

/-- `sext_12` (R83, R84). -/
def sext12 (imm : BitVec 12) : Word := imm.signExtend 32
/-- `sext_13` (R85). -/
def sext13 (imm : BitVec 13) : Word := imm.signExtend 32
/-- `sext_21` (R87). -/
def sext21 (imm : BitVec 21) : Word := imm.signExtend 32
/-- `{imm20, 0x000}` (R86). -/
def upper20 (imm : BitVec 20) : Word := imm ++ 0#12
/-- `zext_5` (R88). -/
def zext5 (shamt : BitVec 5) : Word := shamt.setWidth 32

/-! ## Opcode classes and selectors (R91 to R95) -/

/-- R91. -/
def OpClass.code : OpClass → BitVec 7
  | .load   => 0b0000011
  | .imm    => 0b0010011
  | .auipc  => 0b0010111
  | .store  => 0b0100011
  | .reg    => 0b0110011
  | .lui    => 0b0110111
  | .branch => 0b1100011
  | .jalr   => 0b1100111
  | .jal    => 0b1101111

/-- R91: the class an opcode value belongs to, if it is one of the nine. -/
def OpClass.ofCode (op : BitVec 7) : Option OpClass :=
  [OpClass.load, .imm, .auipc, .store, .reg, .lui, .branch, .jalr, .jal].find? (fun c => c.code = op)

/-- The class the Decoder selects, by `inst[6:0]` alone (R101). -/
def classOf (w : Word) : Option OpClass := OpClass.ofCode (opcodeOf w)

/-- R94: the selector `{alt, funct3}` of each ALU operation. -/
def AluOp.funct : AluOp → BitVec 4
  | .add  => 0b0000
  | .sll  => 0b0001
  | .slt  => 0b0010
  | .sltu => 0b0011
  | .xor  => 0b0100
  | .srl  => 0b0101
  | .or   => 0b0110
  | .and  => 0b0111
  | .sub  => 0b1000
  | .sra  => 0b1101

/-- R94: the operation a selector names; the values 9, 10, 11, 12, 14 and 15 name none (R121). -/
def AluOp.ofFunct (f : BitVec 4) : Option AluOp :=
  [AluOp.add, .sll, .slt, .sltu, .xor, .srl, .or, .and, .sub, .sra].find? (fun o => o.funct = f)

/-- R94: the low three bits of the selector. -/
def AluOp.funct3 (o : AluOp) : BitVec 3 := o.funct.extractLsb' 0 3

/-- R94: the alt bit of the selector. -/
def AluOp.alt (o : AluOp) : BitVec 1 := o.funct.extractLsb' 3 1

/-- R95: funct3 of each branch condition. -/
def BranchCond.code : BranchCond → BitVec 3
  | .eq  => 0b000
  | .ne  => 0b001
  | .lt  => 0b100
  | .ge  => 0b101
  | .ltu => 0b110
  | .geu => 0b111

/-- R95: the condition a code names; 0b010 and 0b011 name none (R171). -/
def BranchCond.ofCode (f : BitVec 3) : Option BranchCond :=
  [BranchCond.eq, .ne, .lt, .ge, .ltu, .geu].find? (fun c => c.code = f)

/-- R93: funct3 selects a shift within class IMM. -/
def isShiftFunct3 (f : BitVec 3) : Bool := f = 0b001 || f = 0b101

/-- R93: the alt bit the Decoder puts into the selector: `inst[30]` for class REG and for the shifts of class IMM. -/
def selectorAlt (c : OpClass) (w : Word) : BitVec 1 :=
  match c with
  | .reg => altOf w
  | .imm => if isShiftFunct3 (funct3Of w) then altOf w else 0
  | _    => 0

/-- R93: `funct`, which is the ADD selector for the six classes that take no operation from funct3. -/
def functOf (c : OpClass) (w : Word) : BitVec 4 :=
  match c with
  | .reg | .imm | .branch => selectorAlt c w ++ funct3Of w
  | .lui | .auipc | .jal | .jalr | .load | .store => AluOp.add.funct

/-! ## The decoded record (R89, R90, R92, R96, R97) -/

/-- R92. -/
def OpClass.itype : OpClass → IType
  | .lui | .reg | .imm => .alu
  | .auipc  => .auipc
  | .jal    => .j
  | .jalr   => .jr
  | .branch => .br
  | .load   => .ld
  | .store  => .st

/-- R96, column rs1_en. -/
def OpClass.rs1En : OpClass → Bool
  | .lui | .auipc | .jal => false
  | .jalr | .branch | .load | .store | .imm | .reg => true

/-- R96, column rs2_en. -/
def OpClass.rs2En : OpClass → Bool
  | .lui | .auipc | .jal | .jalr | .load | .imm => false
  | .branch | .store | .reg => true

/-- R96, column rd_en. -/
def OpClass.rdEn : OpClass → Bool
  | .branch | .store => false
  | .lui | .auipc | .jal | .jalr | .load | .imm | .reg => true

/-- R89: the immediate the Decoder selects; none for class REG. -/
def immOf (c : OpClass) (w : Word) : Option Word :=
  match c with
  | .lui | .auipc => some (upper20 (immUOf w))
  | .jal          => some (sext21 (immJOf w))
  | .jalr | .load => some (sext12 (immIOf w))
  | .imm          => some (if isShiftFunct3 (funct3Of w) then zext5 (shamtOf w) else sext12 (immIOf w))
  | .branch       => some (sext13 (immBOf w))
  | .store        => some (sext12 (immSOf w))
  | .reg          => none

/-- R90, R98: the record of a word of class `c`. -/
def recordOf (c : OpClass) (w : Word) : DecodedInstruction where
  itype      := c.itype
  rs1        := if c.rs1En then some (rs1Of w) else none
  rs2        := if c.rs2En then some (rs2Of w) else none
  rd         := if c.rdEn then some (rdOf w) else none
  funct      := functOf c w
  imm        := immOf c w
  memOpEn    := c = .load || c = .store
  memOpStore := c = .store

/-- R90: the Decoder. It is total on the nine opcode classes; a word outside them has no record (R105). -/
def decodeRecord (w : Word) : Option DecodedInstruction := (classOf w).map (recordOf · w)

/-! ## The word as an instruction (R100 to R105) -/

/-- Class BRANCH: funct3 names the condition (R95) or none (R103). -/
def decodeBranch (w : Word) : Decoded :=
  match BranchCond.ofCode (funct3Of w) with
  | some .eq  => .instr (.beq (rs1Of w) (rs2Of w) (immBOf w))
  | some .ne  => .instr (.bne (rs1Of w) (rs2Of w) (immBOf w))
  | some .lt  => .instr (.blt (rs1Of w) (rs2Of w) (immBOf w))
  | some .ge  => .instr (.bge (rs1Of w) (rs2Of w) (immBOf w))
  | some .ltu => .instr (.bltu (rs1Of w) (rs2Of w) (immBOf w))
  | some .geu => .instr (.bgeu (rs1Of w) (rs2Of w) (immBOf w))
  | none      => .reservedBranch (immBOf w)

/-- Class IMM: `{alt, funct3}` names the operation (R93) or none (R102). The selector of SUB cannot arise in this class,
since alt is 0 when funct3 is 000. -/
def decodeImm (w : Word) : Decoded :=
  match AluOp.ofFunct (functOf .imm w) with
  | some .add  => .instr (.addi (rdOf w) (rs1Of w) (immIOf w))
  | some .slt  => .instr (.slti (rdOf w) (rs1Of w) (immIOf w))
  | some .sltu => .instr (.sltiu (rdOf w) (rs1Of w) (immIOf w))
  | some .xor  => .instr (.xori (rdOf w) (rs1Of w) (immIOf w))
  | some .or   => .instr (.ori (rdOf w) (rs1Of w) (immIOf w))
  | some .and  => .instr (.andi (rdOf w) (rs1Of w) (immIOf w))
  | some .sll  => .instr (.slli (rdOf w) (rs1Of w) (shamtOf w))
  | some .srl  => .instr (.srli (rdOf w) (rs1Of w) (shamtOf w))
  | some .sra  => .instr (.srai (rdOf w) (rs1Of w) (shamtOf w))
  | some .sub | none => .reservedAlu (rdOf w) (functOf .imm w)

/-- Class REG: `{inst[30], funct3}` names the operation (R93) or none (R102). -/
def decodeReg (w : Word) : Decoded :=
  match AluOp.ofFunct (functOf .reg w) with
  | some .add  => .instr (.add (rdOf w) (rs1Of w) (rs2Of w))
  | some .sub  => .instr (.sub (rdOf w) (rs1Of w) (rs2Of w))
  | some .sll  => .instr (.sll (rdOf w) (rs1Of w) (rs2Of w))
  | some .slt  => .instr (.slt (rdOf w) (rs1Of w) (rs2Of w))
  | some .sltu => .instr (.sltu (rdOf w) (rs1Of w) (rs2Of w))
  | some .xor  => .instr (.xor (rdOf w) (rs1Of w) (rs2Of w))
  | some .srl  => .instr (.srl (rdOf w) (rs1Of w) (rs2Of w))
  | some .sra  => .instr (.sra (rdOf w) (rs1Of w) (rs2Of w))
  | some .or   => .instr (.or (rdOf w) (rs1Of w) (rs2Of w))
  | some .and  => .instr (.and (rdOf w) (rs1Of w) (rs2Of w))
  | none       => .reservedAlu (rdOf w) (functOf .reg w)

/-- What the hardware makes of a word. Only the bits the hardware examines take part (R101, R104): the other bits of
funct7, and funct3 of JALR, LOAD and STORE, are ignored. Log entry 12. -/
def decode (w : Word) : Decoded :=
  match classOf w with
  | some .lui    => .instr (.lui (rdOf w) (immUOf w))
  | some .auipc  => .instr (.auipc (rdOf w) (immUOf w))
  | some .jal    => .instr (.jal (rdOf w) (immJOf w))
  | some .jalr   => .instr (.jalr (rdOf w) (rs1Of w) (immIOf w))
  | some .branch => decodeBranch w
  | some .load   => .instr (.lw (rdOf w) (rs1Of w) (immIOf w))
  | some .store  => .instr (.sw (rs1Of w) (rs2Of w) (immSOf w))
  | some .imm    => decodeImm w
  | some .reg    => decodeReg w
  | none         => .unknownOpcode (opcodeOf w)

/-- The instruction of a word, if it is one of the 31. -/
def decodeInstr (w : Word) : Option Instr :=
  match decode w with
  | .instr i => some i
  | .reservedAlu _ _ | .reservedBranch _ | .unknownOpcode _ => none

/-- The instruction read from the word whose low `nbits` bits are `w` (the host's numbering: bit 0 is the least
significant bit of the one word an instruction has, R80). -/
def decodeTableWord (nbits w : Nat) : Option Instr := decodeInstr (BitVec.ofNat 32 (w % 2 ^ nbits))

/-! ## The encoder (R82) -/

/-- The five bits of a register field. -/
def regBits (r : RegIdx) : BitVec 5 := BitVec.ofFin r

/-- R format. -/
def formatR (funct7 : BitVec 7) (rs2 rs1 : RegIdx) (funct3 : BitVec 3) (rd : RegIdx) (op : BitVec 7) : Word :=
  funct7 ++ regBits rs2 ++ regBits rs1 ++ funct3 ++ regBits rd ++ op

/-- I format. -/
def formatI (imm : BitVec 12) (rs1 : RegIdx) (funct3 : BitVec 3) (rd : RegIdx) (op : BitVec 7) : Word :=
  imm ++ regBits rs1 ++ funct3 ++ regBits rd ++ op

/-- I format, shift-immediate variant. -/
def formatShift (funct7 : BitVec 7) (shamt : BitVec 5) (rs1 : RegIdx) (funct3 : BitVec 3) (rd : RegIdx)
    (op : BitVec 7) : Word :=
  funct7 ++ shamt ++ regBits rs1 ++ funct3 ++ regBits rd ++ op

/-- S format. -/
def formatS (imm : BitVec 12) (rs2 rs1 : RegIdx) (funct3 : BitVec 3) (op : BitVec 7) : Word :=
  imm.extractLsb' 5 7 ++ regBits rs2 ++ regBits rs1 ++ funct3 ++ imm.extractLsb' 0 5 ++ op

/-- B format. -/
def formatB (imm : BitVec 13) (rs2 rs1 : RegIdx) (funct3 : BitVec 3) (op : BitVec 7) : Word :=
  imm.extractLsb' 12 1 ++ imm.extractLsb' 5 6 ++ regBits rs2 ++ regBits rs1 ++ funct3 ++ imm.extractLsb' 1 4 ++
    imm.extractLsb' 11 1 ++ op

/-- U format. -/
def formatU (imm20 : BitVec 20) (rd : RegIdx) (op : BitVec 7) : Word := imm20 ++ regBits rd ++ op

/-- J format. -/
def formatJ (imm : BitVec 21) (rd : RegIdx) (op : BitVec 7) : Word :=
  imm.extractLsb' 20 1 ++ imm.extractLsb' 1 10 ++ imm.extractLsb' 11 1 ++ imm.extractLsb' 12 8 ++ regBits rd ++ op

/-- funct7 of the canonical encodings: the alt bit at bit 30, the rest 0 (R100). -/
def funct7Of (o : AluOp) : BitVec 7 := 0#1 ++ o.alt ++ 0#5

/-- A REG instruction's word (R100, R123). -/
def encodeReg (o : AluOp) (rd rs1 rs2 : RegIdx) : Word := formatR (funct7Of o) rs2 rs1 o.funct3 rd OpClass.reg.code

/-- A non-shift IMM instruction's word (R100, R140). -/
def encodeImm (o : AluOp) (rd rs1 : RegIdx) (imm : BitVec 12) : Word := formatI imm rs1 o.funct3 rd OpClass.imm.code

/-- A shift-immediate instruction's word (R100, R140). -/
def encodeShift (o : AluOp) (rd rs1 : RegIdx) (shamt : BitVec 5) : Word :=
  formatShift (funct7Of o) shamt rs1 o.funct3 rd OpClass.imm.code

/-- A branch's word (R100, R172). -/
def encodeBranch (c : BranchCond) (rs1 rs2 : RegIdx) (off : BitVec 13) : Word :=
  formatB off rs2 rs1 c.code OpClass.branch.code

/-- R95: the width code of the canonical LW and SW. -/
def wordWidthCode : BitVec 3 := 0b010

/-- The canonical word of an instruction (R100). -/
def encode : Instr → Word
  | .lui rd imm20     => formatU imm20 rd OpClass.lui.code
  | .auipc rd imm20   => formatU imm20 rd OpClass.auipc.code
  | .jal rd off       => formatJ off rd OpClass.jal.code
  | .jalr rd rs1 imm  => formatI imm rs1 0b000 rd OpClass.jalr.code
  | .beq rs1 rs2 off  => encodeBranch .eq rs1 rs2 off
  | .bne rs1 rs2 off  => encodeBranch .ne rs1 rs2 off
  | .blt rs1 rs2 off  => encodeBranch .lt rs1 rs2 off
  | .bge rs1 rs2 off  => encodeBranch .ge rs1 rs2 off
  | .bltu rs1 rs2 off => encodeBranch .ltu rs1 rs2 off
  | .bgeu rs1 rs2 off => encodeBranch .geu rs1 rs2 off
  | .lw rd rs1 imm    => formatI imm rs1 wordWidthCode rd OpClass.load.code
  | .sw rs1 rs2 imm   => formatS imm rs2 rs1 wordWidthCode OpClass.store.code
  | .addi rd rs1 imm  => encodeImm .add rd rs1 imm
  | .slti rd rs1 imm  => encodeImm .slt rd rs1 imm
  | .sltiu rd rs1 imm => encodeImm .sltu rd rs1 imm
  | .xori rd rs1 imm  => encodeImm .xor rd rs1 imm
  | .ori rd rs1 imm   => encodeImm .or rd rs1 imm
  | .andi rd rs1 imm  => encodeImm .and rd rs1 imm
  | .slli rd rs1 sh   => encodeShift .sll rd rs1 sh
  | .srli rd rs1 sh   => encodeShift .srl rd rs1 sh
  | .srai rd rs1 sh   => encodeShift .sra rd rs1 sh
  | .add rd rs1 rs2   => encodeReg .add rd rs1 rs2
  | .sub rd rs1 rs2   => encodeReg .sub rd rs1 rs2
  | .sll rd rs1 rs2   => encodeReg .sll rd rs1 rs2
  | .slt rd rs1 rs2   => encodeReg .slt rd rs1 rs2
  | .sltu rd rs1 rs2  => encodeReg .sltu rd rs1 rs2
  | .xor rd rs1 rs2   => encodeReg .xor rd rs1 rs2
  | .srl rd rs1 rs2   => encodeReg .srl rd rs1 rs2
  | .sra rd rs1 rs2   => encodeReg .sra rd rs1 rs2
  | .or rd rs1 rs2    => encodeReg .or rd rs1 rs2
  | .and rd rs1 rs2   => encodeReg .and rd rs1 rs2

/-- A word is canonical when it is the encoding of the instruction it decodes to (R9, R100). -/
def isCanonical (w : Word) : Bool :=
  match decodeInstr w with
  | some i => encode i = w
  | none => false

/-! ## The record of an instruction (R92 to R97), what the decoder round trip R99 must give back -/

def recordReg (o : AluOp) (rd rs1 rs2 : RegIdx) : DecodedInstruction :=
  ⟨.alu, some rs1, some rs2, some rd, o.funct, none, false, false⟩

def recordImm (o : AluOp) (rd rs1 : RegIdx) (imm : Word) : DecodedInstruction :=
  ⟨.alu, some rs1, none, some rd, o.funct, some imm, false, false⟩

def recordBranch (c : BranchCond) (rs1 rs2 : RegIdx) (off : BitVec 13) : DecodedInstruction :=
  ⟨.br, some rs1, some rs2, none, 0#1 ++ c.code, some (sext13 off), false, false⟩

/-- The record the Decoder gives the canonical word of an instruction. -/
def Instr.record : Instr → DecodedInstruction
  | .lui rd imm20     => ⟨.alu, none, none, some rd, AluOp.add.funct, some (upper20 imm20), false, false⟩
  | .auipc rd imm20   => ⟨.auipc, none, none, some rd, AluOp.add.funct, some (upper20 imm20), false, false⟩
  | .jal rd off       => ⟨.j, none, none, some rd, AluOp.add.funct, some (sext21 off), false, false⟩
  | .jalr rd rs1 imm  => ⟨.jr, some rs1, none, some rd, AluOp.add.funct, some (sext12 imm), false, false⟩
  | .beq rs1 rs2 off  => recordBranch .eq rs1 rs2 off
  | .bne rs1 rs2 off  => recordBranch .ne rs1 rs2 off
  | .blt rs1 rs2 off  => recordBranch .lt rs1 rs2 off
  | .bge rs1 rs2 off  => recordBranch .ge rs1 rs2 off
  | .bltu rs1 rs2 off => recordBranch .ltu rs1 rs2 off
  | .bgeu rs1 rs2 off => recordBranch .geu rs1 rs2 off
  | .lw rd rs1 imm    => ⟨.ld, some rs1, none, some rd, AluOp.add.funct, some (sext12 imm), true, false⟩
  | .sw rs1 rs2 imm   => ⟨.st, some rs1, some rs2, none, AluOp.add.funct, some (sext12 imm), true, true⟩
  | .addi rd rs1 imm  => recordImm .add rd rs1 (sext12 imm)
  | .slti rd rs1 imm  => recordImm .slt rd rs1 (sext12 imm)
  | .sltiu rd rs1 imm => recordImm .sltu rd rs1 (sext12 imm)
  | .xori rd rs1 imm  => recordImm .xor rd rs1 (sext12 imm)
  | .ori rd rs1 imm   => recordImm .or rd rs1 (sext12 imm)
  | .andi rd rs1 imm  => recordImm .and rd rs1 (sext12 imm)
  | .slli rd rs1 sh   => recordImm .sll rd rs1 (zext5 sh)
  | .srli rd rs1 sh   => recordImm .srl rd rs1 (zext5 sh)
  | .srai rd rs1 sh   => recordImm .sra rd rs1 (zext5 sh)
  | .add rd rs1 rs2   => recordReg .add rd rs1 rs2
  | .sub rd rs1 rs2   => recordReg .sub rd rs1 rs2
  | .sll rd rs1 rs2   => recordReg .sll rd rs1 rs2
  | .slt rd rs1 rs2   => recordReg .slt rd rs1 rs2
  | .sltu rd rs1 rs2  => recordReg .sltu rd rs1 rs2
  | .xor rd rs1 rs2   => recordReg .xor rd rs1 rs2
  | .srl rd rs1 rs2   => recordReg .srl rd rs1 rs2
  | .sra rd rs1 rs2   => recordReg .sra rd rs1 rs2
  | .or rd rs1 rs2    => recordReg .or rd rs1 rs2
  | .and rd rs1 rs2   => recordReg .and rd rs1 rs2

/-! ## The opcode table (R100), its numbers as the spec prints them -/

/-- The row of the table an instruction belongs to. -/
def Instr.row : Instr → OpcodeRow
  | .lui _ _     => ⟨"LUI",   0x00000037, 0x0000007F, 0x0000007F⟩
  | .auipc _ _   => ⟨"AUIPC", 0x00000017, 0x0000007F, 0x0000007F⟩
  | .jal _ _     => ⟨"JAL",   0x0000006F, 0x0000007F, 0x0000007F⟩
  | .jalr _ _ _  => ⟨"JALR",  0x00000067, 0x0000707F, 0x0000007F⟩
  | .beq _ _ _   => ⟨"BEQ",   0x00000063, 0x0000707F, 0x0000707F⟩
  | .bne _ _ _   => ⟨"BNE",   0x00001063, 0x0000707F, 0x0000707F⟩
  | .blt _ _ _   => ⟨"BLT",   0x00004063, 0x0000707F, 0x0000707F⟩
  | .bge _ _ _   => ⟨"BGE",   0x00005063, 0x0000707F, 0x0000707F⟩
  | .bltu _ _ _  => ⟨"BLTU",  0x00006063, 0x0000707F, 0x0000707F⟩
  | .bgeu _ _ _  => ⟨"BGEU",  0x00007063, 0x0000707F, 0x0000707F⟩
  | .lw _ _ _    => ⟨"LW",    0x00002003, 0x0000707F, 0x0000007F⟩
  | .sw _ _ _    => ⟨"SW",    0x00002023, 0x0000707F, 0x0000007F⟩
  | .addi _ _ _  => ⟨"ADDI",  0x00000013, 0x0000707F, 0x0000707F⟩
  | .slti _ _ _  => ⟨"SLTI",  0x00002013, 0x0000707F, 0x0000707F⟩
  | .sltiu _ _ _ => ⟨"SLTIU", 0x00003013, 0x0000707F, 0x0000707F⟩
  | .xori _ _ _  => ⟨"XORI",  0x00004013, 0x0000707F, 0x0000707F⟩
  | .ori _ _ _   => ⟨"ORI",   0x00006013, 0x0000707F, 0x0000707F⟩
  | .andi _ _ _  => ⟨"ANDI",  0x00007013, 0x0000707F, 0x0000707F⟩
  | .slli _ _ _  => ⟨"SLLI",  0x00001013, 0xFE00707F, 0x4000707F⟩
  | .srli _ _ _  => ⟨"SRLI",  0x00005013, 0xFE00707F, 0x4000707F⟩
  | .srai _ _ _  => ⟨"SRAI",  0x40005013, 0xFE00707F, 0x4000707F⟩
  | .add _ _ _   => ⟨"ADD",   0x00000033, 0xFE00707F, 0x4000707F⟩
  | .sub _ _ _   => ⟨"SUB",   0x40000033, 0xFE00707F, 0x4000707F⟩
  | .sll _ _ _   => ⟨"SLL",   0x00001033, 0xFE00707F, 0x4000707F⟩
  | .slt _ _ _   => ⟨"SLT",   0x00002033, 0xFE00707F, 0x4000707F⟩
  | .sltu _ _ _  => ⟨"SLTU",  0x00003033, 0xFE00707F, 0x4000707F⟩
  | .xor _ _ _   => ⟨"XOR",   0x00004033, 0xFE00707F, 0x4000707F⟩
  | .srl _ _ _   => ⟨"SRL",   0x00005033, 0xFE00707F, 0x4000707F⟩
  | .sra _ _ _   => ⟨"SRA",   0x40005033, 0xFE00707F, 0x4000707F⟩
  | .or _ _ _    => ⟨"OR",    0x00006033, 0xFE00707F, 0x4000707F⟩
  | .and _ _ _   => ⟨"AND",   0x00007033, 0xFE00707F, 0x4000707F⟩

/-- One instruction of each row, in the table's order. -/
def tableSamples : List Instr :=
  [.lui 0 0, .auipc 0 0, .jal 0 0, .jalr 0 0 0,
   .beq 0 0 0, .bne 0 0 0, .blt 0 0 0, .bge 0 0 0, .bltu 0 0 0, .bgeu 0 0 0,
   .lw 0 0 0, .sw 0 0 0,
   .addi 0 0 0, .slti 0 0 0, .sltiu 0 0 0, .xori 0 0 0, .ori 0 0 0, .andi 0 0 0,
   .slli 0 0 0, .srli 0 0 0, .srai 0 0 0,
   .add 0 0 0, .sub 0 0 0, .sll 0 0 0, .slt 0 0 0, .sltu 0 0 0,
   .xor 0 0 0, .srl 0 0 0, .sra 0 0 0, .or 0 0 0, .and 0 0 0]

/-- The 31 rows of the table (R100). -/
def opcodeTable : List OpcodeRow := tableSamples.map Instr.row

end Sys2Proof
end

