-- ==== Sys2Proof/Machine/Flags.lean ====
section
/-! DEFINITION. The hardware has no flags and no condition codes (spec 10_state.md R23), so no instruction computes one.
What stands here is the one-bit combinational comparison the machine has: the BranchUnit (44_branches.md R170, R171). -/

namespace Sys2Proof.Machine

/-- Whether a named condition holds (R170). -/
def condHolds (c : BranchCond) (a b : Word) : Bool :=
  match c with
  | .eq  => a == b
  | .ne  => a != b
  | .lt  => a.slt b
  | .ge  => b.sle a
  | .ltu => a.ult b
  | .geu => b.ule a

/-- The BranchUnit: `taken` where `valid` is true, nothing where it is false, since the spec gives no value there
(R170, R171). -/
def branchUnit (a b : Word) (cond : BitVec 3) : Option Bool := (BranchCond.ofCode cond).map (condHolds · a b)

end Sys2Proof.Machine
end

