-- ==== Sys2Proof/Config.lean ====
section
/-! DEFINITION. The construction parameters of spec 00_scope.md R5 and the free values of the model.
The OPEN parameters are plain data; `State` carries a `Params`, fixed for the life of a run (10_state.md R31), so that a
statement about every state is a statement about every value of them. The free values are constants with no body. -/

namespace Sys2Proof

/-- The parameter UNKNOWN_OPCODE (R5, R105, 92_eei_decisions.md D17). -/
inductive UnknownOpcode where
  /-- the step has no result -/
  | refuse
  /-- retire, `pc + 4`, nothing else -/
  | nop
  /-- retire, `pc + 4`, any one register takes any value -/
  | havoc
  deriving DecidableEq, Repr

/-- The parameter TOPOLOGY (R5, R41, D3): one bus instance with two ports and one store, or two with one port and one
store each. A `State` holds it as the constructor of its `Machine.Stores`. -/
inductive Topology where
  | unified | split
  deriving DecidableEq, Repr

/-- The OPEN construction parameters that are fixed for a run (R5, R31). TOPOLOGY is the constructor of `Machine.Stores`,
IMAGE the argument of `Machine.State.construct`, MEM_INIT the free value `Config.memInit`. -/
structure Params where
  /-- RESET_ADDR: the pc after reset and the base of the image (R5, R253); it need not be word-aligned. -/
  resetAddr : Word
  /-- STORE_INDEX_BITS: the width of a store's word index, 1 to 30 (R5, R44). -/
  storeIndexBits : Nat
  /-- UNKNOWN_OPCODE (R5, R105). -/
  unknownOpcode : UnknownOpcode
  /-- REG_INIT: the registers after reset, slot 0 being the hardwired zero (R5, R29). -/
  regInit : Vector Word 32
  deriving DecidableEq, Repr

/-- The ranges R5 and R29 give the parameters. -/
abbrev Params.wf (p : Params) : Prop :=
  1 ≤ p.storeIndexBits ∧ p.storeIndexBits ≤ 30 ∧ p.regInit[0] = 0

/-- The parameters of `State.reset`: RESET_ADDR 0x00001000 as in the spec's examples, 30 index bits (the spec's default),
`havoc`, registers zero. DESIGN CHOICE, log entries 2, 4, 5, 7: the spec leaves all four OPEN. Unsafe for a claim about
the one run from `State.reset`; no statement of this package rests on these values. -/
def Params.default : Params where
  resetAddr := 0x00001000
  storeIndexBits := 30
  unknownOpcode := .havoc
  regInit := Vector.replicate 32 0

namespace Config

/-- MEM_LATENCY: ticks from a granted request to its acknowledge, fixed for the in-scope arbiter (R5, R43). -/
def memLatency : Nat := 1

/-- The physical stores a construction can have (R41): the one shared by both ports under `unified`, or the instruction
and the data store under `split`. -/
inductive StoreId where
  | shared | instruction | data
  deriving DecidableEq, Repr

/-- FREE VALUE: MEM_INIT, the content of the byte at an address of a store before anything is loaded or stored there
(R5, R29, U7; log entry 6). -/
opaque memInit : StoreId → Nat → Byte

/-- FREE VALUE: the `n`-th 32-bit draw: a reserved ALU result (R102, U1), the value `havoc` writes (R105, U3), `inst` and
`rdata` after an `rst` tick (R29, U8). Log entries 5, 8, 9, 10. -/
opaque freeWord : Nat → Word

/-- FREE VALUE: the `n`-th boolean draw: `taken` of a reserved branch condition (R103, U2; log entry 11). -/
opaque freeBool : Nat → Bool

/-- FREE VALUE: the `n`-th register draw: the one register `havoc` changes (R105, D17; log entry 5). -/
opaque freeReg : Nat → RegIdx

end Config

end Sys2Proof
end

