-- ==== Sys2Proof/Machine/State.lean ====
section
/-! DEFINITION. The machine's state: all the registered state of spec 10_state.md, the stores of 20_memory.md, and the
construction parameters that are fixed for a run. Plain data throughout. -/

namespace Sys2Proof.Machine

/-- The FSM state register (R18). -/
inductive Fsm where
  | fetch | execute | write
  deriving DecidableEq, Repr

/-- The two bus ports of the core (R26, R40). -/
inductive PortId where
  | instr | data
  deriving DecidableEq, Repr

/-- The registers the arbiter keeps for one port: its `acknowledge` and its `read_data` output (R21). -/
structure PortRegs where
  ack   : Bool
  rdata : Word
  deriving DecidableEq, Repr

/-- A store's listing: (byte address, byte) pairs with strictly rising addresses. An address that is not listed has no
value here; what the machine reads there is the free value MEM_INIT (log entry 6). The word of index `k` is the four
bytes at `4k` to `4k + 3`, least significant first (log entry 13). -/
abbrev Memory := List Host.Cell

/-- TOPOLOGY and the stores of its bus instances (R22, R41): one store both ports reach, or one store for each port. -/
inductive Stores where
  | unified (store : Memory)
  | split (instrStore dataStore : Memory)
  deriving DecidableEq, Repr



/-- All the state there is (INVENTORY.md, heading State). -/
structure State where
  /-- The OPEN construction parameters, fixed for the life of a run (R5, R31). -/
  params    : Params
  /-- The program counter (R15); its low two bits are kept (R17). -/
  pc        : Word
  /-- The register file (R10); slot 0 is never read (R11). -/
  regs      : Vector Word 32
  /-- The FSM state (R18). -/
  fsm       : Fsm
  /-- The latched instruction (R19). -/
  inst      : Word
  /-- The instruction-retired flag (R20). -/
  retired   : Bool
  /-- The arbiter's registers of the instruction port (R21). -/
  iPort     : PortRegs
  /-- The arbiter's registers of the data port (R21). -/
  dPort     : PortRegs
  /-- The backing stores (R22). -/
  stores    : Stores
  /-- The model's own: how many free values have been drawn (log entry 9). -/
  freeCount : Nat
  deriving DecidableEq, Repr

/-- Why the machine faults: never. "The set of exception causes is empty" (R230), and "a model's step function has no
hardware fault outcome" (R246), so there is no constructor (log entry 16). -/
inductive Fault where
  deriving DecidableEq, Repr

/-- Why the model gives no next state. -/
inductive Refusal where
  /-- Raised by an arm of `exec` whose instruction has no meaning yet; no arm of this model is so. Safe. -/
  | notModelled (mnemonic : String)
  /-- Raised for a word of none of the nine opcode classes when the parameter UNKNOWN_OPCODE is `refuse`, and only then
  (R105, R246, D17). Safe: "errs toward unprovable". -/
  | unknownOpcode (word : Word)
  deriving DecidableEq, Repr

/-- What an instruction, a step or a tick answers. -/
abbrev Outcome := Host.Outcome State Fault Refusal

/-- The machine right after reset (R29, R252): FETCH, pc = RESET_ADDR, nothing retired, no acknowledge, nothing loaded.
The parameters' values (log entries 2 to 5), the registers' zeros (log entry 7), `inst` and `rdata` (log entry 8) and
`freeCount` (log entry 9) are the model's choice. -/
def State.reset : State where
  params    := Params.default
  pc        := Params.default.resetAddr
  regs      := Params.default.regInit
  fsm       := .fetch
  inst      := 0
  retired   := false
  iPort     := ⟨false, 0⟩
  dPort     := ⟨false, 0⟩
  stores    := .unified []
  freeCount := 0

end Sys2Proof.Machine
end

