-- ==== Sys2Proof/Machine/Ops.lean ====
section
/-! DEFINITION. The named operations over registers, memory and the rest of the state (spec 10_state.md, 20_memory.md).
Taking an exception and returning from one have no operation here: the hardware has no trap entry and no trap return
(60_exceptions.md R230, R238, R239), and no instruction raises anything. -/

namespace Sys2Proof.Machine

/-! ## General registers (R10 to R12) -/

/-- `read(idx)`: "returns 0 when idx==0" (R11, R12). -/
def regRead (regs : Vector Word 32) (i : RegIdx) : Word := if i = 0 then 0 else regs[i]

/-- The register file after a write: index 0 is "accepted but never observably change[s]" (R11, R12). -/
def regWrite (regs : Vector Word 32) (i : RegIdx) (v : Word) : Vector Word 32 := if i = 0 then regs else regs.set i v

/-- `x[i]` (R8). -/
def State.x (s : State) (i : RegIdx) : Word := regRead s.regs i

/-- `x[i] <- v` (R8). -/
def State.writeX (s : State) (i : RegIdx) (v : Word) : State := { s with regs := regWrite s.regs i v }

/-! ## Bytes of a word (R46) -/

/-- Byte `k` of a word, byte 0 in bits 7 to 0. -/
def wordByte (w : Word) (k : Nat) : Byte := w.extractLsb' (8 * k) 8

/-- The word of four bytes, the first in bits 7 to 0. -/
def wordOfBytes (b0 b1 b2 b3 : Byte) : Word := b3 ++ b2 ++ b1 ++ b0

/-! ## One store -/

/-- The byte listed at an address, if one is. -/
def Memory.byte? : Memory → Nat → Option Byte
  | [], _ => none
  | (k, v) :: m, a => if a = k then some v else Memory.byte? m a

/-- The listing with `v` at address `a`: inserted in order, or in place of the byte listed there. An unlisted address has
no value, so there is never an entry to remove. -/
def Memory.putByte : Memory → Nat → Byte → Memory
  | [], a, v => [(a, v)]
  | (k, w) :: m, a, v =>
    if a < k then (a, v) :: (k, w) :: m else if a = k then (a, v) :: m else (k, w) :: Memory.putByte m a v

/-- The canonical form: addresses strictly rising. -/
abbrev Memory.wf (m : Memory) : Prop := m.Pairwise (fun c d => c.1 < d.1)

/-- Every listed address lies in a store of `2^bits` words. -/
abbrev Memory.within (bits : Nat) (m : Memory) : Prop := ∀ c ∈ m, c.1 < 4 * 2 ^ bits

/-- The byte at an address: the one listed, or the initial one (R29, log entry 6). -/
def Memory.byteAt (init : Nat → Byte) (m : Memory) (a : Nat) : Byte := (m.byte? a).getD (init a)

/-- The word of index `k` (R22, R45). -/
def Memory.wordAt (init : Nat → Byte) (m : Memory) (k : Nat) : Word :=
  wordOfBytes (m.byteAt init (4 * k)) (m.byteAt init (4 * k + 1)) (m.byteAt init (4 * k + 2)) (m.byteAt init (4 * k + 3))

/-- The store with the word of index `k` replaced whole (R45). -/
def Memory.putWord (m : Memory) (k : Nat) (v : Word) : Memory :=
  (((m.putByte (4 * k) (wordByte v 0)).putByte (4 * k + 1) (wordByte v 1)).putByte (4 * k + 2) (wordByte v 2)).putByte
    (4 * k + 3) (wordByte v 3)

/-- `index(address) = address[STORE_INDEX_BITS+1 : 2]` (R44): upper bits wrap, the low two are ignored (R47). -/
def storeIndex (bits : Nat) (address : Word) : Nat := address.toNat / 4 % 2 ^ bits

/-! ## The stores of the block (R26, R41) -/

/-- The store a port reaches. -/
def Stores.reach : Stores → PortId → Memory
  | .unified m, _ => m
  | .split i _, .instr => i
  | .split _ d, .data => d

/-- Which physical store that is. -/
def Stores.storeId : Stores → PortId → Config.StoreId
  | .unified _, _ => .shared
  | .split _ _, .instr => .instruction
  | .split _ _, .data => .data

/-- The byte a port reaches at an address. -/
def Stores.byteAt (st : Stores) (p : PortId) (a : Nat) : Byte := (st.reach p).byteAt (Config.memInit (st.storeId p)) a

/-- The word a port reaches at an index. -/
def Stores.wordAt (st : Stores) (p : PortId) (k : Nat) : Word := (st.reach p).wordAt (Config.memInit (st.storeId p)) k

/-- The stores after a word is written through a port. -/
def Stores.putWord (st : Stores) (p : PortId) (k : Nat) (v : Word) : Stores :=
  match st, p with
  | .unified m, _ => .unified (m.putWord k v)
  | .split i d, .instr => .split (i.putWord k v) d
  | .split i d, .data => .split i (d.putWord k v)

/-- Every store is in canonical form and within its size. -/
abbrev Stores.wf (bits : Nat) : Stores → Prop
  | .unified m => m.wf ∧ m.within bits
  | .split i d => (i.wf ∧ i.within bits) ∧ (d.wf ∧ d.within bits)

/-! ## Memory through the state (R8, R45) -/

/-- The word index of an address in this machine (R44). -/
def State.index (s : State) (address : Word) : Nat := storeIndex s.params.storeIndexBits address

/-- The byte a port reaches at a byte address of its store. -/
def State.byteAt (s : State) (p : PortId) (a : Nat) : Byte := s.stores.byteAt p a

/-- `MemRead(address, 4)` through a port. -/
def State.memRead (s : State) (p : PortId) (address : Word) : Word := s.stores.wordAt p (s.index address)

/-- `MemWrite(address, 4, v)` through a port. -/
def State.memWrite (s : State) (p : PortId) (address v : Word) : State :=
  { s with stores := s.stores.putWord p (s.index address) v }

/-- The word the instruction port reaches at the pc (R202): the low two bits of the pc are ignored (R17). -/
def State.fetchWord (s : State) : Word := s.memRead .instr s.pc

/-! ## Instruction boundaries, latches and the commit -/

/-- R9, R215: FETCH, and no acknowledge on either port. -/
def State.atBoundary (s : State) : Bool := s.fsm = .fetch && !s.iPort.ack && !s.dPort.ack

/-- What the FETCH phase leaves behind: the word in `inst` (R202) and in the instruction port's `rdata` (R51). -/
def State.latchFetch (s : State) (w : Word) : State := { s with inst := w, iPort := { s.iPort with rdata := w } }

/-- What a data transaction leaves in the data port's `rdata`: the addressed word as it was, for a write too (R51). -/
def State.latchData (s : State) (w : Word) : State := { s with dPort := { s.dPort with rdata := w } }

/-- The commit: the next pc, back to FETCH, the `retired` pulse (R20, R204, R206). -/
def State.retire (s : State) (nextPc : Word) : State := { s with pc := nextPc, fsm := .fetch, retired := true }

/-- `pc + 4`, modulo 2^32 (R16). -/
def State.pc4 (s : State) : Word := s.pc + 4

/-- The counter after `n` draws of free values (log entry 9). -/
def State.drawn (s : State) (n : Nat) : State := { s with freeCount := s.freeCount + n }

end Sys2Proof.Machine
end

