-- ==== Sys2Proof/Machine/Operands.lean ====
section
/-! DEFINITION. Every operand form of the instruction set: a register (`State.x`), an immediate extended to 32 bits, the
one addressing mode of the loads and stores, the two pc-relative targets and the register-relative one. -/

namespace Sys2Proof.Machine

/-- `ea = (x[rs1] + imm) mod 2^32`, the only addressing mode (45_load_store.md R185). -/
def effectiveAddress (rs1 : RegIdx) (imm : BitVec 12) (s : State) : Word := s.x rs1 + sext12 imm

/-- `(pc + imm_B) mod 2^32`, pc being the address of the branch itself (44_branches.md R172). -/
def branchTarget (offset : BitVec 13) (s : State) : Word := s.pc + sext13 offset

/-- `(pc + imm_J) mod 2^32`, pc being the address of the JAL itself (43_jumps.md R160). -/
def jalTarget (offset : BitVec 21) (s : State) : Word := s.pc + sext21 offset

/-- `(x[rs1] + imm_I) mod 2^32`, no bit cleared (43_jumps.md R161). -/
def jalrTarget (rs1 : RegIdx) (imm : BitVec 12) (s : State) : Word := s.x rs1 + sext12 imm

/-- `(pc + imm_U) mod 2^32` (42_upper_immediate.md R156). -/
def pcUpper (imm20 : BitVec 20) (s : State) : Word := s.pc + upper20 imm20

end Sys2Proof.Machine
end

