-- ==== Sys2Proof/Machine/Branches.lean ====
section
/-! DEFINITION. The six conditional branches (spec 44_branches.md R172 to R178). -/

namespace Sys2Proof.Machine

/-- R172: the next pc of a branch. -/
def branchNextPc (taken : Bool) (offset : BitVec 13) (s : State) : Word := if taken then branchTarget offset s else s.pc4

/-- The template of R172: compare two registers; only the pc changes. -/
def branchOn (c : BranchCond) (rs1 rs2 : RegIdx) (offset : BitVec 13) (s : State) : Outcome :=
  .next (s.retire (branchNextPc (condHolds c (s.x rs1) (s.x rs2)) offset s))

/-- R173. -/
def execBeq (rs1 rs2 : RegIdx) (offset : BitVec 13) (s : State) : Outcome := branchOn .eq rs1 rs2 offset s
/-- R174. -/
def execBne (rs1 rs2 : RegIdx) (offset : BitVec 13) (s : State) : Outcome := branchOn .ne rs1 rs2 offset s
/-- R175. -/
def execBlt (rs1 rs2 : RegIdx) (offset : BitVec 13) (s : State) : Outcome := branchOn .lt rs1 rs2 offset s
/-- R176. -/
def execBge (rs1 rs2 : RegIdx) (offset : BitVec 13) (s : State) : Outcome := branchOn .ge rs1 rs2 offset s
/-- R177. -/
def execBltu (rs1 rs2 : RegIdx) (offset : BitVec 13) (s : State) : Outcome := branchOn .ltu rs1 rs2 offset s
/-- R178. -/
def execBgeu (rs1 rs2 : RegIdx) (offset : BitVec 13) (s : State) : Outcome := branchOn .geu rs1 rs2 offset s

end Sys2Proof.Machine
end

