-- ==== Sys2Proof/Machine/Alu.lean ====
section
/-! DEFINITION. The ALU (spec 40_alu_register.md R120 to R122): a pure function, no state, no flags. -/

namespace Sys2Proof.Machine

/-- The shift amount, `b[4:0]` (R120, R122). -/
def shiftAmount (b : Word) : Nat := (b.extractLsb' 0 5).toNat

/-- A truth value as a 32-bit 0 or 1 (R120). -/
def boolWord (c : Bool) : Word := if c then 1 else 0

/-- The result of a named operation (R120). -/
def aluCompute (op : AluOp) (a b : Word) : Word :=
  match op with
  | .add  => a + b
  | .sub  => a - b
  | .sll  => a <<< shiftAmount b
  | .slt  => boolWord (a.slt b)
  | .sltu => boolWord (a.ult b)
  | .xor  => a ^^^ b
  | .srl  => a >>> shiftAmount b
  | .sra  => a.sshiftRight (shiftAmount b)
  | .or   => a ||| b
  | .and  => a &&& b

/-- The ALU component, `(result, valid)`: an unrecognised selector gives 0 and `valid = false` (R120, R121). -/
def alu (a b : Word) (op : BitVec 4) : Word × Bool :=
  match AluOp.ofFunct op with
  | some o => (aluCompute o a b, true)
  | none => (0, false)

end Sys2Proof.Machine
end

