-- ==== Sys2Proof/Machine/ImmediateAlu.lean ====
section
/-! DEFINITION. The nine register-immediate instructions (spec 41_alu_immediate.md R140 to R149). -/

namespace Sys2Proof.Machine

/-- The template of R140: one register and the decoded immediate, which is sign-extended for the six non-shift
instructions and the zero-extended shift amount for the three shifts. -/
def immAlu (op : AluOp) (rd rs1 : RegIdx) (imm : Word) (s : State) : Outcome :=
  .next ((s.writeX rd (aluCompute op (s.x rs1) imm)).retire s.pc4)

/-- R141. -/
def execAddi (rd rs1 : RegIdx) (imm : BitVec 12) (s : State) : Outcome := immAlu .add rd rs1 (sext12 imm) s
/-- R142. -/
def execSlti (rd rs1 : RegIdx) (imm : BitVec 12) (s : State) : Outcome := immAlu .slt rd rs1 (sext12 imm) s
/-- R143: the immediate is sign-extended, then compared as unsigned. -/
def execSltiu (rd rs1 : RegIdx) (imm : BitVec 12) (s : State) : Outcome := immAlu .sltu rd rs1 (sext12 imm) s
/-- R144. -/
def execXori (rd rs1 : RegIdx) (imm : BitVec 12) (s : State) : Outcome := immAlu .xor rd rs1 (sext12 imm) s
/-- R145. -/
def execOri (rd rs1 : RegIdx) (imm : BitVec 12) (s : State) : Outcome := immAlu .or rd rs1 (sext12 imm) s
/-- R146. -/
def execAndi (rd rs1 : RegIdx) (imm : BitVec 12) (s : State) : Outcome := immAlu .and rd rs1 (sext12 imm) s
/-- R147. -/
def execSlli (rd rs1 : RegIdx) (shamt : BitVec 5) (s : State) : Outcome := immAlu .sll rd rs1 (zext5 shamt) s
/-- R148. -/
def execSrli (rd rs1 : RegIdx) (shamt : BitVec 5) (s : State) : Outcome := immAlu .srl rd rs1 (zext5 shamt) s
/-- R149. -/
def execSrai (rd rs1 : RegIdx) (shamt : BitVec 5) (s : State) : Outcome := immAlu .sra rd rs1 (zext5 shamt) s

end Sys2Proof.Machine
end

