-- ==== Sys2Proof/Machine/Jumps.lean ====
section
/-! DEFINITION. JAL and JALR (spec 43_jumps.md R160 to R162). No target is checked, no bit of one is cleared. -/

namespace Sys2Proof.Machine

/-- R160: link `pc + 4`, target `pc + imm_J`. -/
def execJal (rd : RegIdx) (offset : BitVec 21) (s : State) : Outcome := .next ((s.writeX rd s.pc4).retire (jalTarget offset s))

/-- R161: link `pc + 4`, target `x[rs1] + imm_I` with the old `x[rs1]` (R12). -/
def execJalr (rd rs1 : RegIdx) (imm : BitVec 12) (s : State) : Outcome :=
  .next ((s.writeX rd s.pc4).retire (jalrTarget rs1 imm s))

end Sys2Proof.Machine
end

