-- ==== Sys2Proof/Machine/LoadStore.lean ====
section
/-! DEFINITION. LW and SW (spec 45_load_store.md R185 to R188): whole words through the data port, never a fault.
Both leave the addressed word, as it was, in the data port's `rdata` (20_memory.md R51). -/

namespace Sys2Proof.Machine

/-- R186: `x[rd] <- MemRead(ea, 4)`. -/
def execLw (rd rs1 : RegIdx) (imm : BitVec 12) (s : State) : Outcome :=
  let word := s.memRead .data (effectiveAddress rs1 imm s)
  .next (((s.latchData word).writeX rd word).retire s.pc4)

/-- R187: `MemWrite(ea, 4, x[rs2])`. -/
def execSw (rs1 rs2 : RegIdx) (imm : BitVec 12) (s : State) : Outcome :=
  let ea := effectiveAddress rs1 imm s
  .next (((s.latchData (s.memRead .data ea)).memWrite .data ea (s.x rs2)).retire s.pc4)

end Sys2Proof.Machine
end

