-- ==== Sys2Proof/Machine/RegisterAlu.lean ====
section
/-! DEFINITION. The ten register-register instructions (spec 40_alu_register.md R123 to R133). -/

namespace Sys2Proof.Machine

/-- The template of R123: read both registers, compute, write `rd`, advance the pc. -/
def regAlu (op : AluOp) (rd rs1 rs2 : RegIdx) (s : State) : Outcome :=
  .next ((s.writeX rd (aluCompute op (s.x rs1) (s.x rs2))).retire s.pc4)

/-- R124. -/
def execAdd (rd rs1 rs2 : RegIdx) (s : State) : Outcome := regAlu .add rd rs1 rs2 s
/-- R125. -/
def execSub (rd rs1 rs2 : RegIdx) (s : State) : Outcome := regAlu .sub rd rs1 rs2 s
/-- R126. -/
def execSll (rd rs1 rs2 : RegIdx) (s : State) : Outcome := regAlu .sll rd rs1 rs2 s
/-- R127. -/
def execSlt (rd rs1 rs2 : RegIdx) (s : State) : Outcome := regAlu .slt rd rs1 rs2 s
/-- R128. -/
def execSltu (rd rs1 rs2 : RegIdx) (s : State) : Outcome := regAlu .sltu rd rs1 rs2 s
/-- R129. -/
def execXor (rd rs1 rs2 : RegIdx) (s : State) : Outcome := regAlu .xor rd rs1 rs2 s
/-- R130. -/
def execSrl (rd rs1 rs2 : RegIdx) (s : State) : Outcome := regAlu .srl rd rs1 rs2 s
/-- R131. -/
def execSra (rd rs1 rs2 : RegIdx) (s : State) : Outcome := regAlu .sra rd rs1 rs2 s
/-- R132. -/
def execOr (rd rs1 rs2 : RegIdx) (s : State) : Outcome := regAlu .or rd rs1 rs2 s
/-- R133. -/
def execAnd (rd rs1 rs2 : RegIdx) (s : State) : Outcome := regAlu .and rd rs1 rs2 s

end Sys2Proof.Machine
end

