-- ==== Sys2Proof/Machine/UpperImmediate.lean ====
section
/-! DEFINITION. LUI and AUIPC (spec 42_upper_immediate.md R155, R156). -/

namespace Sys2Proof.Machine

/-- R155: `x[rd] <- imm_U`, no register is read. -/
def execLui (rd : RegIdx) (imm20 : BitVec 20) (s : State) : Outcome := .next ((s.writeX rd (upper20 imm20)).retire s.pc4)

/-- R156: `x[rd] <- pc + imm_U`. -/
def execAuipc (rd : RegIdx) (imm20 : BitVec 20) (s : State) : Outcome := .next ((s.writeX rd (pcUpper imm20 s)).retire s.pc4)

end Sys2Proof.Machine
end

