-- ==== Sys2Proof/Machine/Bus.lean ====
section
/-! DEFINITION. The bus: the port signals and the arbiter with its store, for any number of ports (spec 20_memory.md R40 to
R55). Every next value is computed from the values before the tick (R53). -/

namespace Sys2Proof.Machine

/-- The request signals of a port, master to memory unit (R42). -/
structure BusRequest where
  address     : Word
  writeData   : Word
  writeEnable : Bool
  cycle       : Bool
  strobe      : Bool
  deriving DecidableEq, Repr

/-- The response signals of a port, memory unit to master (R27, R42). -/
structure PortResponse where
  readData    : Word
  acknowledge : Bool
  deriving DecidableEq, Repr

/-- What an idle port drives (50_sequencer.md R207, R208). -/
def BusRequest.idle : BusRequest := ⟨0, 0, false, false, false⟩

/-- The response is the arbiter's two registers of the port (R21, R27). -/
def PortRegs.response (p : PortRegs) : PortResponse := ⟨p.rdata, p.ack⟩

/-- `req[p] = cycle[p] and strobe[p] and not ack[p]` (R49). -/
def BusRequest.pending (r : BusRequest) (p : PortRegs) : Bool := r.cycle && r.strobe && !p.ack

/-- The condition under which the store takes a port's data (R52). -/
def BusRequest.commits (r : BusRequest) (p : PortRegs) : Bool := r.cycle && r.strobe && r.writeEnable && p.ack

/-- `grant`: the lowest port that requests, or none (R49). -/
def grant {n : Nat} (req : Fin n → BusRequest) (regs : Fin n → PortRegs) : Option (Fin n) :=
  (List.finRange n).find? fun p => (req p).pending (regs p)

/-- The registers of port `p` after a tick (R50, R51). -/
def arbiterPort {n : Nat} (bits : Nat) (init : Nat → Byte) (store : Memory) (req : Fin n → BusRequest)
    (regs : Fin n → PortRegs) (p : Fin n) : PortRegs :=
  if grant req regs = some p then ⟨true, store.wordAt init (storeIndex bits (req p).address)⟩ else ⟨false, (regs p).rdata⟩

/-- The store after a tick: it takes the data of the port that commits, if one does (R52). -/
def arbiterStore {n : Nat} (bits : Nat) (store : Memory) (req : Fin n → BusRequest) (regs : Fin n → PortRegs) : Memory :=
  match (List.finRange n).find? fun p => (req p).commits (regs p) with
  | some p => store.putWord (storeIndex bits (req p).address) (req p).writeData
  | none => store

/-- The memory side of one tick of the block: port 0 is the instruction port and port 1 the data port of the one bus
instance under `unified`; under `split` each is port 0 of its own (R41). -/
def State.busTick (s : State) (i d : BusRequest) : State :=
  let bits := s.params.storeIndexBits
  match s.stores with
  | .unified m =>
    let init := Config.memInit .shared
    { s with
      iPort  := arbiterPort bits init m ![i, d] ![s.iPort, s.dPort] 0
      dPort  := arbiterPort bits init m ![i, d] ![s.iPort, s.dPort] 1
      stores := .unified (arbiterStore bits m ![i, d] ![s.iPort, s.dPort]) }
  | .split im dm =>
    { s with
      iPort  := arbiterPort bits (Config.memInit .instruction) im ![i] ![s.iPort] 0
      dPort  := arbiterPort bits (Config.memInit .data) dm ![d] ![s.dPort] 0
      stores := .split (arbiterStore bits im ![i] ![s.iPort]) (arbiterStore bits dm ![d] ![s.dPort]) }

end Sys2Proof.Machine
end

