-- ==== Sys2Proof/Machine/HostInterface.lean ====
section
/-! DEFINITION. What the host does to the block and sees of it: construction with the image, the `rst` input, the debug
surface (spec 70_reset_and_hazards.md R250 to R255, R263; 10_state.md R28). -/

namespace Sys2Proof.Machine

/-! ## Construction (R255) -/

/-- The words of an image given as a byte stream, little-endian (R46, R255). -/
def imageOfBytes : List Byte → List Word
  | b0 :: b1 :: b2 :: b3 :: rest => wordOfBytes b0 b1 b2 b3 :: imageOfBytes rest
  | _ => []

/-- The stores of a topology with nothing loaded (R41). -/
def Stores.empty : Topology → Stores
  | .unified => .unified []
  | .split => .split [] []

/-- The topology of a construction's stores. -/
def Stores.topology : Stores → Topology
  | .unified _ => .unified
  | .split _ _ => .split

/-- Image word `i` goes to the instruction port's store at the index of `address + 4*i` (R255). -/
def Stores.loadImage (bits : Nat) : Word → List Word → Stores → Stores
  | _, [], st => st
  | address, w :: ws, st => Stores.loadImage bits (address + 4) ws (st.putWord .instr (storeIndex bits address) w)

/-- The block constructed with its parameters and image, right after reset (R5, R29, R255): this is how a program comes to
be in memory (log entry 14). -/
def State.construct (p : Params) (topology : Topology) (image : List Word) : State :=
  { State.reset with
    params := p
    pc     := p.resetAddr
    regs   := p.regInit
    stores := (Stores.empty topology).loadImage p.storeIndexBits p.resetAddr image }

/-! ## The reset input (R29, R250, R251) -/

/-- A tick with `rst = 1`: the reset values of R29 whatever the state; the stores are as they were; `inst` and both
`rdata` are unspecified, so free values. Log entries 8 and 18. -/
def State.applyReset (s : State) : State :=
  { s with
    pc        := s.params.resetAddr
    regs      := s.params.regInit
    fsm       := .fetch
    inst      := Config.freeWord s.freeCount
    retired   := false
    iPort     := ⟨false, Config.freeWord (s.freeCount + 1)⟩
    dPort     := ⟨false, Config.freeWord (s.freeCount + 2)⟩
    freeCount := s.freeCount + 3 }

/-! ## The debug surface (R28) -/

/-- What is externally readable: pc, `x[0..31]` and the retired pulse. -/
structure DebugSurface where
  pc      : Word
  x       : Vector Word 32
  retired : Bool
  deriving DecidableEq, Repr

/-- The registered values of the current cycle, `x[0]` reading 0 (R28). -/
def State.debugSurface (s : State) : DebugSurface := ⟨s.pc, Vector.ofFn s.x, s.retired⟩

end Sys2Proof.Machine
end

