-- ==== Sys2Proof/Machine/Reserved.lean ====
section
/-! DEFINITION. The words the hardware runs that have no row in the opcode table (spec 30_encoding.md R102, R103, R105):
each retires, and what the spec leaves open is a free value (93_implementation_defined.md U1 to U3). -/

namespace Sys2Proof.Machine

/-- R102, R121, U1: the result "is still latched"; its value is a free value, everything else is as an ALU instruction.
Log entry 10. -/
def execReservedAlu (rd : RegIdx) (s : State) : Outcome :=
  .next (((s.writeX rd (Config.freeWord s.freeCount)).drawn 1).retire s.pc4)

/-- R103, R171, U2: the next pc is the branch target or `pc + 4`, by a free boolean; no register is written.
Log entry 11. -/
def execReservedBranch (offset : BitVec 13) (s : State) : Outcome :=
  .next ((s.drawn 1).retire (branchNextPc (Config.freeBool s.freeCount) offset s))

/-- R105, U3: the parameter UNKNOWN_OPCODE decides, as 92_eei_decisions.md D17 defines its values: no result; retire with
`pc + 4` and nothing else; retire with `pc + 4` and any one register taking any value. Log entry 5. -/
def execUnknownOpcode (w : Word) (s : State) : Outcome :=
  match s.params.unknownOpcode with
  | .refuse => .refused (.unknownOpcode w)
  | .nop => .next (s.retire s.pc4)
  | .havoc => .next (((s.writeX (Config.freeReg s.freeCount) (Config.freeWord s.freeCount)).drawn 1).retire s.pc4)

end Sys2Proof.Machine
end

