-- ==== Sys2Proof/Machine/Sequencer.lean ====
section
/-! DEFINITION. The cycle level: the CpuCore's combinational datapath, its bus requests and its tick, and the whole block's
tick (spec 50_sequencer.md R200 to R212). -/

namespace Sys2Proof.Machine

/-! ## The datapath (R201, R203), a function of the decoded record and the registered state -/

/-- Register file read port 1, driven with `inst[19:15]` always (R14, R201). -/
def State.rv1 (s : State) : Word := s.x (rs1Of s.inst)

/-- Register file read port 2, driven with `inst[24:20]` always (R14, R201). -/
def State.rv2 (s : State) : Word := s.x (rs2Of s.inst)

/-- Operand a: the pc for AUIPC and JAL, else the register, forced to 0 where rs1 is not enabled (LUI) (R203, R155). -/
def operandA (d : DecodedInstruction) (s : State) : Word :=
  match d.itype with
  | .auipc | .j => s.pc
  | .alu | .jr | .br | .st | .ld => if d.rs1.isSome then s.rv1 else 0

/-- Operand b: the register "unless overridden by the decoded immediate"; branches compare two registers (R203). -/
def operandB (d : DecodedInstruction) (s : State) : Word :=
  match d.itype with
  | .br => s.rv2
  | .alu | .auipc | .j | .jr | .st | .ld => d.imm.getD s.rv2

/-- `ALU(a, b, d.funct)` with its `valid` output (R201). -/
def aluOut (d : DecodedInstruction) (s : State) : Word × Bool := alu (operandA d s) (operandB d s) d.funct

/-- `BR(rv1, rv2, d.funct[2:0])`, "always evaluated, ignored when irrelevant" (R170, R201). -/
def branchOut (d : DecodedInstruction) (s : State) : Option Bool := branchUnit s.rv1 s.rv2 (d.funct.extractLsb' 0 3)

/-- How many free values the instruction takes: one for a reserved ALU selector (U1) or branch condition (U2). -/
def freeDraws (d : DecodedInstruction) (s : State) : Nat :=
  match d.itype with
  | .alu => if (aluOut d s).2 then 0 else 1
  | .br => if (branchOut d s).isSome then 0 else 1
  | .auipc | .j | .jr | .st | .ld => 0

/-- Next pc (R203); the branch target has its own adder, and an unspecified `taken` is a free boolean (R171). -/
def nextPc (d : DecodedInstruction) (s : State) : Word :=
  match d.itype with
  | .alu | .ld | .st | .auipc => s.pc4
  | .j | .jr => (aluOut d s).1
  | .br => if (branchOut d s).getD (Config.freeBool s.freeCount) then s.pc + d.imm.getD 0 else s.pc4

/-- Write-back data when committing from EXECUTE (R203): an ALU result with `valid` false is a free value (R121, U1); a
load has none there, since it commits from WRITE. -/
def writeBack (d : DecodedInstruction) (s : State) : Option Word :=
  match d.itype with
  | .alu => some (if (aluOut d s).2 then (aluOut d s).1 else Config.freeWord s.freeCount)
  | .auipc => some (aluOut d s).1
  | .j | .jr => some s.pc4
  | .ld | .st | .br => none

/-- A commit tick: the register write if `rd_en`, the pc, back to FETCH, the pulse (R204, R206). -/
def commitRecord (d : DecodedInstruction) (wb : Option Word) (s : State) : State :=
  let written := match d.rd, wb with
    | some rd, some v => s.writeX rd v
    | _, _ => s
  (written.drawn (freeDraws d s)).retire (nextPc d s)

/-! ## Bus requests (R207, R208) -/

/-- The instruction port's request: driven in FETCH only, never a write (R207). -/
def State.iRequest (s : State) : BusRequest :=
  match s.fsm with
  | .fetch => ⟨s.pc, 0, false, true, true⟩
  | .execute | .write => .idle

/-- The data port's request: driven in WRITE only (R208). WRITE with a latched word of no class is never reached (R205);
nothing is driven there (log entry 19). -/
def State.dRequest (s : State) : BusRequest :=
  match s.fsm with
  | .fetch | .execute => .idle
  | .write =>
    match decodeRecord s.inst with
    | some d => ⟨(aluOut d s).1, s.rv2, d.memOpStore, true, true⟩
    | none => .idle

/-! ## The core's tick (R202 to R206, R210) -/

/-- The core's next state from its own and the two ports' responses, `rst` being 0. It waits for each acknowledge however
long it takes (R211). The arbiter's registers and the stores are left to the bus. -/
def coreTick (i d : PortResponse) (s : State) : Outcome :=
  match s.fsm with
  | .fetch =>
    if i.acknowledge then .next { s with inst := i.readData, fsm := .execute, retired := false }
    else .next { s with retired := false }
  | .execute =>
    match decodeRecord s.inst with
    | none => execUnknownOpcode s.inst s
    | some r =>
      if r.memOpEn then .next { s with fsm := .write, retired := false }
      else .next (commitRecord r (writeBack r s) s)
  | .write =>
    match decodeRecord s.inst with
    | none => execUnknownOpcode s.inst s
    | some r =>
      if d.acknowledge then .next (commitRecord r (if r.memOpStore then none else some d.readData) s)
      else .next { s with retired := false }

/-- The core alone, fed one pair of responses (instruction port, data port) a cycle: any memory unit of any latency. -/
def coreRun : List (PortResponse × PortResponse) → State → Outcome
  | [], s => .next s
  | (i, d) :: rest, s =>
    match coreTick i d s with
    | .next t => coreRun rest t
    | .fault r => .fault r
    | .refused r => .refused r

/-- One tick of the block: core and bus move together from the same pre-tick values (R210). `rst` wins over everything and
leaves the stores alone (R250, R251). -/
def tick (rst : Bool) (s : State) : Outcome :=
  if rst then .next s.applyReset
  else
    match coreTick s.iPort.response s.dPort.response s with
    | .next t =>
      let b := s.busTick s.iRequest s.dRequest
      .next { t with iPort := b.iPort, dPort := b.dPort, stores := b.stores }
    | .fault r => .fault r
    | .refused r => .refused r

/-- The block clocked with a sequence of `rst` samples. -/
def runTicks : List Bool → State → Outcome
  | [], s => .next s
  | rst :: rest, s =>
    match tick rst s with
    | .next t => runTicks rest t
    | .fault r => .fault r
    | .refused r => .refused r

/-- `n` ticks with `rst` held 0. -/
def ticks (n : Nat) (s : State) : Outcome := runTicks (List.replicate n false) s

/-- Clock until an instruction boundary is reached, at most `fuel` ticks and at least one. -/
def runToBoundary : Nat → State → Outcome
  | 0, s => .next s
  | fuel + 1, s =>
    match tick false s with
    | .next t => if t.atBoundary then .next t else runToBoundary fuel t
    | .fault r => .fault r
    | .refused r => .refused r

end Sys2Proof.Machine
end

