-- ==== Sys2Proof/Machine/Instruction.lean ====
section
/-! DEFINITION. One whole instruction: what a fetched word does (spec 00_scope.md R6, 50_sequencer.md R215). -/

namespace Sys2Proof.Machine

/-- The effect of a word, whatever its bits: an instruction of the table, or one of the three kinds of word the hardware
runs without a row (30_encoding.md R102, R103, R105). Every word retires (60_exceptions.md R230). -/
def runWord (w : Word) (s : State) : Outcome :=
  match decode w with
  | .instr i => exec i s
  | .reservedAlu rd _ => execReservedAlu rd s
  | .reservedBranch offset => execReservedBranch offset s
  | .unknownOpcode _ => execUnknownOpcode w s

/-- From an instruction boundary to the next: fetch the word the pc names, then its effect (R215). -/
def instructionStep (s : State) : Outcome := runWord s.fetchWord (s.latchFetch s.fetchWord)

/-- A sequence of instructions, one after the other, wherever they were fetched from (30_encoding.md R111's expansions). -/
def execAll : List Instr → State → Outcome
  | [], s => .next s
  | i :: rest, s =>
    match exec i s with
    | .next t => execAll rest t
    | .fault r => .fault r
    | .refused r => .refused r

/-- The word of a host's number: its low `nbits` bits, the rest 0. -/
def hostWord (nbits w : Nat) : Word := BitVec.ofNat 32 (w % 2 ^ nbits)

/-- The state brought to an instruction boundary with a word stored where the next fetch reads. -/
def State.placeWord (s : State) (w : Word) : State :=
  { s with
    fsm    := .fetch
    iPort  := { s.iPort with ack := false }
    dPort  := { s.dPort with ack := false }
    stores := s.stores.putWord .instr (s.index s.pc) w }

end Sys2Proof.Machine
end

