-- ==== Sys2Proof/Machine/Step.lean ====
section
/-! DEFINITION. The step: one whole instruction (spec 00_scope.md R6). Log entry 1. -/

namespace Sys2Proof.Machine

/-- One step. At an instruction boundary it is one instruction (R215); elsewhere the instruction in flight is finished,
tick by tick, up to the next boundary, which is at most five ticks away (R265). -/
def step (s : State) : Host.Outcome State Fault Refusal :=
  if s.atBoundary then instructionStep s else runToBoundary 5 s

/-- `s` with an instruction stored where step fetches its next one. At a boundary nothing but the stores changes; elsewhere
the instruction in flight is dropped, so that the very next step fetches. -/
def State.withFetchWord (s : State) (nbits w : Nat) : State := s.placeWord (hostWord nbits w)

end Sys2Proof.Machine
end

