-- ==== Sys2Proof/Assembly.lean ====
section
/-! DEFINITION. The assembler view of the instructions (spec 30_encoding.md R110 to R112): operand syntax,
pseudo-instructions, register aliases. It is for readers; the machine does not use it. The forms the source does not show
are general knowledge in the spec itself (93_implementation_defined.md G4; log entry 20). -/

namespace Sys2Proof

/-- `x0` to `x31` (R10, R110). -/
def regName (r : RegIdx) : String := "x" ++ toString r.val

/-- The aliases of the calling convention (R112); the hardware gives them no meaning. -/
def abiName (r : RegIdx) : String :=
  match r.val with
  | 0 => "zero" | 1 => "ra" | 2 => "sp" | 3 => "gp" | 4 => "tp"
  | 5 => "t0" | 6 => "t1" | 7 => "t2" | 8 => "s0" | 9 => "s1"
  | n => if n < 18 then "a" ++ toString (n - 10) else if n < 28 then "s" ++ toString (n - 16) else "t" ++ toString (n - 25)

/-- `OP rd,rs1,rs2` (R110). -/
def asmReg (op : String) (rd rs1 rs2 : RegIdx) : String :=
  op ++ " " ++ regName rd ++ "," ++ regName rs1 ++ "," ++ regName rs2

/-- `OP rd,rs1,imm`, the immediate signed decimal (R110). -/
def asmImm (op : String) (rd rs1 : RegIdx) (imm : BitVec 12) : String :=
  op ++ " " ++ regName rd ++ "," ++ regName rs1 ++ "," ++ toString imm.toInt

/-- `OP rd,rs1,shamt` (R110). -/
def asmShift (op : String) (rd rs1 : RegIdx) (shamt : BitVec 5) : String :=
  op ++ " " ++ regName rd ++ "," ++ regName rs1 ++ "," ++ toString shamt.toNat

/-- `OP rd,imm20`, the 20 bits in hexadecimal (R110). -/
def asmUpper (op : String) (rd : RegIdx) (imm20 : BitVec 20) : String :=
  op ++ " " ++ regName rd ++ ",0x" ++ String.ofList (Nat.toDigits 16 imm20.toNat)

/-- `OP r,offset(base)` (R110): rd first for LW and JALR, the value register first for SW. -/
def asmOffset (op : String) (r base : RegIdx) (imm : BitVec 12) : String :=
  op ++ " " ++ regName r ++ "," ++ toString imm.toInt ++ "(" ++ regName base ++ ")"

/-- `OP rs1,rs2,offset` (R110). -/
def asmBranch (op : String) (rs1 rs2 : RegIdx) (off : BitVec 13) : String :=
  op ++ " " ++ regName rs1 ++ "," ++ regName rs2 ++ "," ++ toString off.toInt

/-- The operand syntax of R110. -/
def Instr.assembly : Instr → String
  | .lui rd imm20     => asmUpper "LUI" rd imm20
  | .auipc rd imm20   => asmUpper "AUIPC" rd imm20
  | .jal rd off       => "JAL " ++ regName rd ++ "," ++ toString off.toInt
  | .jalr rd rs1 imm  => asmOffset "JALR" rd rs1 imm
  | .beq rs1 rs2 off  => asmBranch "BEQ" rs1 rs2 off
  | .bne rs1 rs2 off  => asmBranch "BNE" rs1 rs2 off
  | .blt rs1 rs2 off  => asmBranch "BLT" rs1 rs2 off
  | .bge rs1 rs2 off  => asmBranch "BGE" rs1 rs2 off
  | .bltu rs1 rs2 off => asmBranch "BLTU" rs1 rs2 off
  | .bgeu rs1 rs2 off => asmBranch "BGEU" rs1 rs2 off
  | .lw rd rs1 imm    => asmOffset "LW" rd rs1 imm
  | .sw rs1 rs2 imm   => asmOffset "SW" rs2 rs1 imm
  | .addi rd rs1 imm  => asmImm "ADDI" rd rs1 imm
  | .slti rd rs1 imm  => asmImm "SLTI" rd rs1 imm
  | .sltiu rd rs1 imm => asmImm "SLTIU" rd rs1 imm
  | .xori rd rs1 imm  => asmImm "XORI" rd rs1 imm
  | .ori rd rs1 imm   => asmImm "ORI" rd rs1 imm
  | .andi rd rs1 imm  => asmImm "ANDI" rd rs1 imm
  | .slli rd rs1 sh   => asmShift "SLLI" rd rs1 sh
  | .srli rd rs1 sh   => asmShift "SRLI" rd rs1 sh
  | .srai rd rs1 sh   => asmShift "SRAI" rd rs1 sh
  | .add rd rs1 rs2   => asmReg "ADD" rd rs1 rs2
  | .sub rd rs1 rs2   => asmReg "SUB" rd rs1 rs2
  | .sll rd rs1 rs2   => asmReg "SLL" rd rs1 rs2
  | .slt rd rs1 rs2   => asmReg "SLT" rd rs1 rs2
  | .sltu rd rs1 rs2  => asmReg "SLTU" rd rs1 rs2
  | .xor rd rs1 rs2   => asmReg "XOR" rd rs1 rs2
  | .srl rd rs1 rs2   => asmReg "SRL" rd rs1 rs2
  | .sra rd rs1 rs2   => asmReg "SRA" rd rs1 rs2
  | .or rd rs1 rs2    => asmReg "OR" rd rs1 rs2
  | .and rd rs1 rs2   => asmReg "AND" rd rs1 rs2

/-- The pseudo-instructions of R111. -/
inductive Pseudo where
  | nop
  | mv   (rd rs : RegIdx)
  | li   (rd : RegIdx) (imm : BitVec 12)
  | liAny (rd : RegIdx) (imm : Word)
  | not  (rd rs : RegIdx)
  | neg  (rd rs : RegIdx)
  | seqz (rd rs : RegIdx)
  | snez (rd rs : RegIdx)
  | sltz (rd rs : RegIdx)
  | sgtz (rd rs : RegIdx)
  | beqz (rs : RegIdx) (off : BitVec 13)
  | bnez (rs : RegIdx) (off : BitVec 13)
  | blez (rs : RegIdx) (off : BitVec 13)
  | bgez (rs : RegIdx) (off : BitVec 13)
  | bltz (rs : RegIdx) (off : BitVec 13)
  | bgtz (rs : RegIdx) (off : BitVec 13)
  | bgt  (rs rt : RegIdx) (off : BitVec 13)
  | ble  (rs rt : RegIdx) (off : BitVec 13)
  | bgtu (rs rt : RegIdx) (off : BitVec 13)
  | bleu (rs rt : RegIdx) (off : BitVec 13)
  | j    (off : BitVec 21)
  | jal  (off : BitVec 21)
  | jr   (rs : RegIdx)
  | jalr (rs : RegIdx)
  | ret
  | call (off : Word)
  deriving DecidableEq, Repr

/-- `lo = sext_12(imm[11:0])` (R111), as the 12-bit field. -/
def lowPart (imm : Word) : BitVec 12 := imm.extractLsb' 0 12

/-- `hi = ((imm - lo) >> 12) & 0xFFFFF` (R111). -/
def highPart (imm : Word) : BitVec 20 := (imm - sext12 (lowPart imm)).extractLsb' 12 20

/-- The expansions of R111. -/
def Pseudo.expand : Pseudo → List Instr
  | .nop           => [.addi 0 0 0]
  | .mv rd rs      => [.addi rd rs 0]
  | .li rd imm     => [.addi rd 0 imm]
  | .liAny rd imm  => [.lui rd (highPart imm), .addi rd rd (lowPart imm)]
  | .not rd rs     => [.xori rd rs (-1)]
  | .neg rd rs     => [.sub rd 0 rs]
  | .seqz rd rs    => [.sltiu rd rs 1]
  | .snez rd rs    => [.sltu rd 0 rs]
  | .sltz rd rs    => [.slt rd rs 0]
  | .sgtz rd rs    => [.slt rd 0 rs]
  | .beqz rs off   => [.beq rs 0 off]
  | .bnez rs off   => [.bne rs 0 off]
  | .blez rs off   => [.bge 0 rs off]
  | .bgez rs off   => [.bge rs 0 off]
  | .bltz rs off   => [.blt rs 0 off]
  | .bgtz rs off   => [.blt 0 rs off]
  | .bgt rs rt off => [.blt rt rs off]
  | .ble rs rt off => [.bge rt rs off]
  | .bgtu rs rt off => [.bltu rt rs off]
  | .bleu rs rt off => [.bgeu rt rs off]
  | .j off         => [.jal 0 off]
  | .jal off       => [.jal 1 off]
  | .jr rs         => [.jalr 0 rs 0]
  | .jalr rs       => [.jalr 1 rs 0]
  | .ret           => [.jalr 0 1 0]
  | .call off      => [.auipc 1 (highPart off), .jalr 1 1 (lowPart off)]

end Sys2Proof
end

