-- ==== Sys2Proof/Safety.lean ====
section
/-! DEFINITION. What claims are stated in: the well-formed states, the states a clocked run can be in, the effect of an
instruction with its frame, and a safe run. -/

namespace Sys2Proof.Machine

/-! ## Invariants -/

/-- The state is well formed: parameters in the ranges of 00_scope.md R5, the slot of the hardwired register zero
(10_state.md R11, R29), every store canonical and no larger than its index reaches (20_memory.md R44). -/
abbrev State.wf (s : State) : Prop :=
  s.params.wf ∧ s.regs[0] = 0 ∧ s.stores.wf s.params.storeIndexBits

/-- The latched word is a load or a store (30_encoding.md R97). -/
def State.latchedMemOp (s : State) : Bool :=
  match decodeRecord s.inst with
  | some d => d.memOpEn
  | none => false

/-- What core and bus keep between them at every clock cycle (20_memory.md R50, R55, 50_sequencer.md R202, R205, R206,
R209): an acknowledge is only up on the port the core is requesting on, and then `rdata` is the addressed word; WRITE is
only entered with a load or store latched. -/
def State.coherent (s : State) : Prop :=
  match s.fsm with
  | .fetch => s.dPort.ack = false ∧ (s.iPort.ack = true → s.iPort.rdata = s.fetchWord)
  | .execute => s.iPort.ack = false ∧ s.dPort.ack = false
  | .write => s.iPort.ack = false ∧ s.latchedMemOp = true ∧
      (s.dPort.ack = true → s.dPort.rdata = s.memRead .data s.dRequest.address)

/-! ## Frames -/

/-- Every register but `rd` is as before. -/
def SameRegsBut (rd : RegIdx) (s t : State) : Prop := ∀ r, r ≠ rd → t.x r = s.x r

/-- Every register is as before. -/
def SameRegs (s t : State) : Prop := ∀ r, t.x r = s.x r

/-- Every byte either port reaches is as before. -/
def SameBytes (s t : State) : Prop := ∀ p a, t.byteAt p a = s.byteAt p a

/-- Parameters, topology, latched instruction, instruction port and free-value counter are as before. -/
def SameControl (s t : State) : Prop :=
  t.params = s.params ∧ t.stores.topology = s.stores.topology ∧ t.inst = s.inst ∧ t.iPort = s.iPort ∧
    t.freeCount = s.freeCount

/-- The instruction committed: the pc is `npc`, the core is back in FETCH, the pulse is up (R20, R204, R206). -/
def Committed (npc : Word) (t : State) : Prop := t.pc = npc ∧ t.fsm = .fetch ∧ t.retired = true

/-- An instruction that writes `v` to `rd` (nothing, if `rd` is 0), goes to `npc`, and changes nothing else. -/
def RegisterEffect (rd : RegIdx) (v npc : Word) (s t : State) : Prop :=
  Committed npc t ∧ t.x rd = (if rd = 0 then 0 else v) ∧ SameRegsBut rd s t ∧ SameBytes s t ∧ SameControl s t ∧
    t.dPort = s.dPort

/-- An instruction that goes to `npc` and changes nothing else. -/
def PcEffect (npc : Word) (s t : State) : Prop :=
  Committed npc t ∧ SameRegs s t ∧ SameBytes s t ∧ SameControl s t ∧ t.dPort = s.dPort

/-! ## Templates of the instruction rules -/

/-- `w` is the canonical word of `i`, it is read back as `i`, and the Decoder's record of it is `d` (R90, R99, R100). -/
def EncodedAs (i : Instr) (w : Word) (d : DecodedInstruction) : Prop :=
  encode i = w ∧ decode w = .instr i ∧ decodeRecord w = some d

/-- The instruction retires from EXECUTE (R204): with its word latched, the core's tick there is its whole effect, whatever
the ports answer. -/
def RetiresFromExecute (i : Instr) : Prop :=
  ∀ s ir dr, s.fsm = .execute → s.inst = encode i → coreTick ir dr s = exec i s

/-- The rule of one register-register instruction (R123): its encoding and record, and that from every state it completes
with `result x[rs1] x[rs2]` in `rd`, `pc + 4`, and nothing else changed. -/
def RegRule (mk : RegIdx → RegIdx → RegIdx → Instr) (funct7 : BitVec 7) (funct3 : BitVec 3) (funct : BitVec 4)
    (result : Word → Word → Word) : Prop :=
  ∀ rd rs1 rs2,
    EncodedAs (mk rd rs1 rs2) (funct7 ++ regBits rs2 ++ regBits rs1 ++ funct3 ++ regBits rd ++ 0b0110011#7)
      ⟨.alu, some rs1, some rs2, some rd, funct, none, false, false⟩ ∧
    RetiresFromExecute (mk rd rs1 rs2) ∧
    ∀ s, ∃ t, exec (mk rd rs1 rs2) s = .next t ∧ RegisterEffect rd (result (s.x rs1) (s.x rs2)) (s.pc + 4) s t

/-- The 32-bit word of an integer: what sign extension gives (R7). -/
def signedWord (n : Int) : Word := BitVec.ofInt 32 n

/-- The rule of one register-immediate instruction that is no shift (R140): the second operand is the 12-bit field read as
two's complement. -/
def ImmRule (mk : RegIdx → RegIdx → BitVec 12 → Instr) (funct3 : BitVec 3) (funct : BitVec 4)
    (result : Word → Word → Word) : Prop :=
  ∀ rd rs1 imm,
    EncodedAs (mk rd rs1 imm) (imm ++ regBits rs1 ++ funct3 ++ regBits rd ++ 0b0010011#7)
      ⟨.alu, some rs1, none, some rd, funct, some (signedWord imm.toInt), false, false⟩ ∧
    RetiresFromExecute (mk rd rs1 imm) ∧
    ∀ s, ∃ t, exec (mk rd rs1 imm) s = .next t ∧ RegisterEffect rd (result (s.x rs1) (signedWord imm.toInt)) (s.pc + 4) s t

/-- The rule of one shift-immediate instruction (R140): the decoded immediate is the shift amount, 0 to 31. -/
def ShiftRule (mk : RegIdx → RegIdx → BitVec 5 → Instr) (funct7 : BitVec 7) (funct3 : BitVec 3) (funct : BitVec 4)
    (result : Word → Nat → Word) : Prop :=
  ∀ rd rs1 shamt,
    EncodedAs (mk rd rs1 shamt) (funct7 ++ shamt ++ regBits rs1 ++ funct3 ++ regBits rd ++ 0b0010011#7)
      ⟨.alu, some rs1, none, some rd, funct, some (BitVec.ofNat 32 shamt.toNat), false, false⟩ ∧
    RetiresFromExecute (mk rd rs1 shamt) ∧
    ∀ s, ∃ t, exec (mk rd rs1 shamt) s = .next t ∧ RegisterEffect rd (result (s.x rs1) shamt.toNat) (s.pc + 4) s t

/-- The rule of one conditional branch (R172): its encoding and record for an even offset, and that from every state it
completes at `pc + offset` if `taken x[rs1] x[rs2]`, else at `pc + 4`, with nothing else changed. -/
def BranchRule (mk : RegIdx → RegIdx → BitVec 13 → Instr) (funct3 : BitVec 3) (taken : Word → Word → Bool) : Prop :=
  ∀ rs1 rs2 off,
    (off.getLsbD 0 = false →
      EncodedAs (mk rs1 rs2 off)
        (off.extractLsb' 12 1 ++ off.extractLsb' 5 6 ++ regBits rs2 ++ regBits rs1 ++ funct3 ++ off.extractLsb' 1 4 ++
          off.extractLsb' 11 1 ++ 0b1100011#7)
        ⟨.br, some rs1, some rs2, none, 0#1 ++ funct3, some (signedWord off.toInt), false, false⟩ ∧
      RetiresFromExecute (mk rs1 rs2 off)) ∧
    ∀ s, ∃ t, exec (mk rs1 rs2 off) s = .next t ∧
      PcEffect (if taken (s.x rs1) (s.x rs2) then s.pc + signedWord off.toInt else s.pc + 4) s t

/-! ## Safe runs -/

/-- The next fetch finds a canonical word of one of the 31 instructions (60_exceptions.md R246: what a program is asked to
keep to). -/
def State.fetchesCanonical (s : State) : Prop := isCanonical s.fetchWord = true

/-- `k` steps, each from a canonical fetch. -/
def SafeRun : Nat → State → Prop
  | 0, _ => True
  | k + 1, s => s.fetchesCanonical ∧ ∃ t, step s = .next t ∧ SafeRun k t

end Sys2Proof.Machine
end

