-- ==== Sys2Proof/Certificates/Slice0/Obligations.lean ====
section
/-! DEFINITION. The statements for the provers: what the rules of the spec say of this machine. Each docstring names its
rule. `expect` is `holds` for all. -/

open Sys2Proof Sys2Proof.Machine

/-! ## Encoding and the Decoder -/

/-- A sanity statement: words the spec prints (95_test_vectors.md 2.1 to 2.7), one of every family, decode to the
instruction they stand for. -/
def Obligations.PrintedWordsDecode : Prop :=
  decodeInstr 0x402081B3 = some (.sub 3 1 2) ∧ decodeInstr 0xFFF30293 = some (.addi 5 6 (-1)) ∧
  decodeInstr 0x40435293 = some (.srai 5 6 4) ∧ decodeInstr 0xDEADC0B7 = some (.lui 1 0xDEADC) ∧
  decodeInstr 0xFFDFF0EF = some (.jal 1 (-4)) ∧ decodeInstr 0xFFC280E7 = some (.jalr 1 5 (-4)) ∧
  decodeInstr 0xFE009CE3 = some (.bne 1 0 (-8)) ∧ decodeInstr 0xFF012103 = some (.lw 2 2 (-16)) ∧
  decodeInstr 0xFE11AC23 = some (.sw 3 1 (-8))

/-- R99: decoding the encoded word of any instruction with in-range fields gives back the instruction, and the Decoder's
record gives back its rs1, rs2, rd, funct, imm and itype. -/
def Obligations.DecodeOfEncodeIsTheInstruction : Prop :=
  ∀ i : Instr, i.wellFormed = true → decode (encode i) = .instr i ∧ decodeRecord (encode i) = some i.record

/-- R100: a word matches a row of the opcode table on its mask exactly when it is the canonical word of an instruction of
that row; there are 31 rows, and no two overlap under `mask` or under `hw_mask`. -/
def Obligations.TableRowsAreTheCanonicalWords : Prop :=
  (∀ row ∈ opcodeTable, ∀ w : Word,
    w &&& row.mask = row.matched ↔ ∃ i : Instr, i.wellFormed = true ∧ i.row = row ∧ encode i = w) ∧
  opcodeTable.length = 31 ∧
  opcodeTable.Pairwise (fun r q =>
    r.matched &&& (r.mask &&& q.mask) ≠ q.matched &&& (r.mask &&& q.mask) ∧
    r.matched &&& (r.hwMask &&& q.hwMask) ≠ q.matched &&& (r.hwMask &&& q.hwMask))

/-- The hardware reads an instruction of a row from a word exactly when the word matches the row on the bits the Decoder
examines (R100's column "hw examines", R101). That the model runs the non-canonical ones is its choice, log entry 12. -/
def Obligations.HardwareMaskDecidesTheRow : Prop :=
  ∀ row ∈ opcodeTable, ∀ w : Word,
    w &&& row.hwMask = row.matched &&& row.hwMask ↔ ∃ i : Instr, decode w = .instr i ∧ i.row = row

/-- R83 to R87: where every bit of each immediate lies, and that its 32-bit value is the field read as two's complement
(I, S, B, J) or the upper 20 bits (U), with the ranges the rules give; and the shift amount's bits and value (of R88, whose
choice of the decoded `imm` is the spec's decision D20). -/
def Obligations.ImmediatesComeFromTheirBits : Prop :=
  ∀ w : Word,
    ((∀ k < 12, (immIOf w).getLsbD k = w.getLsbD (20 + k)) ∧ (sext12 (immIOf w)).toInt = (immIOf w).toInt ∧
      -2048 ≤ (immIOf w).toInt ∧ (immIOf w).toInt ≤ 2047) ∧
    ((∀ k < 5, (immSOf w).getLsbD k = w.getLsbD (7 + k)) ∧ (∀ k < 7, (immSOf w).getLsbD (5 + k) = w.getLsbD (25 + k)) ∧
      (sext12 (immSOf w)).toInt = (immSOf w).toInt ∧ -2048 ≤ (immSOf w).toInt ∧ (immSOf w).toInt ≤ 2047) ∧
    ((immBOf w).getLsbD 0 = false ∧ (∀ k < 4, (immBOf w).getLsbD (1 + k) = w.getLsbD (8 + k)) ∧
      (∀ k < 6, (immBOf w).getLsbD (5 + k) = w.getLsbD (25 + k)) ∧ (immBOf w).getLsbD 11 = w.getLsbD 7 ∧
      (immBOf w).getLsbD 12 = w.getLsbD 31 ∧ (sext13 (immBOf w)).toInt = (immBOf w).toInt ∧
      -4096 ≤ (immBOf w).toInt ∧ (immBOf w).toInt ≤ 4094) ∧
    ((∀ k < 12, (upper20 (immUOf w)).getLsbD k = false) ∧
      (∀ k < 20, (upper20 (immUOf w)).getLsbD (12 + k) = w.getLsbD (12 + k)) ∧
      upper20 (immUOf w) = w &&& 0xFFFFF000) ∧
    ((immJOf w).getLsbD 0 = false ∧ (∀ k < 10, (immJOf w).getLsbD (1 + k) = w.getLsbD (21 + k)) ∧
      (immJOf w).getLsbD 11 = w.getLsbD 20 ∧ (∀ k < 8, (immJOf w).getLsbD (12 + k) = w.getLsbD (12 + k)) ∧
      (immJOf w).getLsbD 20 = w.getLsbD 31 ∧ (sext21 (immJOf w)).toInt = (immJOf w).toInt ∧
      -1048576 ≤ (immJOf w).toInt ∧ (immJOf w).toInt ≤ 1048574) ∧
    ((∀ k < 5, (shamtOf w).getLsbD k = w.getLsbD (20 + k)) ∧ (zext5 (shamtOf w)).toNat = (shamtOf w).toNat)

/-- R89, R91, R92, R93, R96, R97: for each of the nine values of `inst[6:0]`, the whole record the Decoder gives: itype, the
enabled register fields, the selector `{alt, funct3}` (alt being `inst[30]` for class REG and for the shifts of class IMM,
else 0), the immediate, the memory flags. -/
def Obligations.RecordOfEachOpcodeClass : Prop :=
  ∀ w : Word,
    let f3 := w.extractLsb' 12 3
    let rd := some (rdOf w)
    let rs1 := some (rs1Of w)
    let rs2 := some (rs2Of w)
    (w.extractLsb' 0 7 = 0b0110111#7 →
      decodeRecord w = some ⟨.alu, none, none, rd, 0, some (upper20 (immUOf w)), false, false⟩) ∧
    (w.extractLsb' 0 7 = 0b0010111#7 →
      decodeRecord w = some ⟨.auipc, none, none, rd, 0, some (upper20 (immUOf w)), false, false⟩) ∧
    (w.extractLsb' 0 7 = 0b1101111#7 →
      decodeRecord w = some ⟨.j, none, none, rd, 0, some (sext21 (immJOf w)), false, false⟩) ∧
    (w.extractLsb' 0 7 = 0b1100111#7 →
      decodeRecord w = some ⟨.jr, rs1, none, rd, 0, some (sext12 (immIOf w)), false, false⟩) ∧
    (w.extractLsb' 0 7 = 0b1100011#7 →
      decodeRecord w = some ⟨.br, rs1, rs2, none, 0#1 ++ f3, some (sext13 (immBOf w)), false, false⟩) ∧
    (w.extractLsb' 0 7 = 0b0000011#7 →
      decodeRecord w = some ⟨.ld, rs1, none, rd, 0, some (sext12 (immIOf w)), true, false⟩) ∧
    (w.extractLsb' 0 7 = 0b0100011#7 →
      decodeRecord w = some ⟨.st, rs1, rs2, none, 0, some (sext12 (immSOf w)), true, true⟩) ∧
    (w.extractLsb' 0 7 = 0b0010011#7 →
      (f3 = 0b001 ∨ f3 = 0b101 →
        decodeRecord w = some ⟨.alu, rs1, none, rd, w.extractLsb' 30 1 ++ f3, some (zext5 (shamtOf w)), false, false⟩) ∧
      (f3 ≠ 0b001 → f3 ≠ 0b101 →
        decodeRecord w = some ⟨.alu, rs1, none, rd, 0#1 ++ f3, some (sext12 (immIOf w)), false, false⟩)) ∧
    (w.extractLsb' 0 7 = 0b0110011#7 →
      decodeRecord w = some ⟨.alu, rs1, rs2, rd, w.extractLsb' 30 1 ++ f3, none, false, false⟩)

/-- An unknown opcode (R105): exactly the words whose `inst[6:0]` is none of the nine values, 119 of the 128, every word
with `inst[1:0] ≠ 11` among them. Such a word has no record. What it does is the parameter UNKNOWN_OPCODE with the three
values of D17 (log entry 5): refused with no next state; `pc + 4` and nothing else; `pc + 4` and at most one register
changed. -/
def Obligations.UnknownOpcodeFollowsItsParameter : Prop :=
  (∀ w : Word, decode w = .unknownOpcode (w.extractLsb' 0 7) ↔
    w.extractLsb' 0 7 ∉ [0x03#7, 0x13#7, 0x17#7, 0x23#7, 0x33#7, 0x37#7, 0x63#7, 0x67#7, 0x6F#7]) ∧
  (∀ w : Word, w.extractLsb' 0 2 ≠ 0b11#2 → decode w = .unknownOpcode (w.extractLsb' 0 7)) ∧
  ((List.range 128).filter (fun n => (OpClass.ofCode (BitVec.ofNat 7 n)).isNone)).length = 119 ∧
  (∀ (w : Word) (s : State), decode w = .unknownOpcode (w.extractLsb' 0 7) →
    decodeRecord w = none ∧
    (s.params.unknownOpcode = .refuse → runWord w s = .refused (.unknownOpcode w)) ∧
    (s.params.unknownOpcode = .nop → ∃ t, runWord w s = .next t ∧ PcEffect (s.pc + 4) s t) ∧
    (s.params.unknownOpcode = .havoc → ∃ t r, runWord w s = .next t ∧ Committed (s.pc + 4) t ∧ SameRegsBut r s t ∧
      t.x 0 = 0 ∧ SameBytes s t ∧ t.params = s.params ∧ t.inst = s.inst ∧ t.iPort = s.iPort ∧ t.dPort = s.dPort))

/-- R104: every word of class LOAD is LW and every word of class STORE is SW, whatever funct3 is. -/
def Obligations.LoadsAndStoresIgnoreFunct3 : Prop :=
  ∀ (w : Word) (s : State),
    (w.extractLsb' 0 7 = 0b0000011#7 →
      decode w = .instr (.lw (rdOf w) (rs1Of w) (immIOf w)) ∧
      runWord w s = exec (.lw (rdOf w) (rs1Of w) (immIOf w)) s) ∧
    (w.extractLsb' 0 7 = 0b0100011#7 →
      decode w = .instr (.sw (rs1Of w) (rs2Of w) (immSOf w)) ∧
      runWord w s = exec (.sw (rs1Of w) (rs2Of w) (immSOf w)) s)

/-- A reserved ALU selector (R102, R121, U1): which words have one; the instruction retires with `pc + 4` and writes some
value to `rd`, a free value of the model (log entry 10), and nothing else but the model's draw counter changes. -/
def Obligations.ReservedAluWordsStillRetire : Prop :=
  (∀ w : Word, (∃ rd f, decode w = .reservedAlu rd f) ↔
    (w.extractLsb' 30 1 = 1#1 ∧
      (w.extractLsb' 0 7 = 0x33#7 ∧ w.extractLsb' 12 3 ∈ [0b001#3, 0b010#3, 0b011#3, 0b100#3, 0b110#3, 0b111#3] ∨
       w.extractLsb' 0 7 = 0x13#7 ∧ w.extractLsb' 12 3 = 0b001#3))) ∧
  (∀ (w : Word) (rd : RegIdx) (f : BitVec 4) (s : State), decode w = .reservedAlu rd f →
    rd = rdOf w ∧ f ∈ [9#4, 10#4, 11#4, 12#4, 14#4, 15#4] ∧ (∀ a b, alu a b f = (0, false)) ∧
    ∃ t, runWord w s = .next t ∧ Committed (s.pc + 4) t ∧ SameRegsBut rd s t ∧ SameBytes s t ∧
      t.x rd = (if rd = 0 then 0 else Config.freeWord s.freeCount) ∧ t.params = s.params ∧ t.inst = s.inst ∧
      t.iPort = s.iPort ∧ t.dPort = s.dPort ∧ t.freeCount = s.freeCount + 1)

/-- A reserved branch condition (R103, R171, U2): class BRANCH with funct3 010 or 011; the instruction retires, no register
or memory changes, and the next pc is `pc + imm_B` or `pc + 4`, by a free boolean of the model (log entry 11). -/
def Obligations.ReservedBranchWordsStillRetire : Prop :=
  (∀ w : Word, (∃ off, decode w = .reservedBranch off) ↔
    (w.extractLsb' 0 7 = 0x63#7 ∧ (w.extractLsb' 12 3 = 0b010#3 ∨ w.extractLsb' 12 3 = 0b011#3))) ∧
  (∀ (w : Word) (off : BitVec 13) (s : State), decode w = .reservedBranch off →
    off = immBOf w ∧ (∀ a b, branchUnit a b (w.extractLsb' 12 3) = none) ∧
    ∃ t, runWord w s = .next t ∧ (Committed (s.pc + signedWord off.toInt) t ∨ Committed (s.pc + 4) t) ∧ SameRegs s t ∧
      SameBytes s t ∧ t.params = s.params ∧ t.inst = s.inst ∧ t.iPort = s.iPort ∧ t.dPort = s.dPort ∧
      t.freeCount = s.freeCount + 1)

/-! ## Registers -/

/-- R11: index 0 reads 0 whatever was written; any other index reads what was written last, and a write leaves every other
index alone. An instruction whose `rd` is 0 executes normally (it retires; LW still makes its access) and its register
result is discarded. -/
def Obligations.RegisterZeroIsHardwired : Prop :=
  (∀ (s : State), s.x 0 = 0) ∧
  (∀ (s : State) (v : Word) (r : RegIdx), (s.writeX 0 v).x r = s.x r) ∧
  (∀ (s : State) (i r : RegIdx) (v : Word), i ≠ 0 → (s.writeX i v).x r = if r = i then v else s.x r) ∧
  (∀ (i : Instr) (s t : State), exec i s = .next t → t.x 0 = 0) ∧
  (∀ (i : Instr) (s : State), i.record.rd = some 0 → ∃ t, exec i s = .next t ∧ SameRegs s t ∧ Committed t.pc t ∧
    (i.record.itype ∉ [.j, .jr] → t.pc = s.pc + 4)) ∧
  (∀ (s : State) (rs1 : RegIdx) (imm : BitVec 12), ∃ t, exec (.lw 0 rs1 imm) s = .next t ∧
    t.dPort.rdata = s.memRead .data (s.x rs1 + signedWord imm.toInt))

/-- R14: an instruction changes no register but the one its record names as destination, and its effect depends on no
register its record does not enable: with the other registers changed, the next pc, the stores, the data port and the value
in the destination are the same. -/
def Obligations.OnlyNamedRegistersTakePart : Prop :=
  (∀ (i : Instr) (s t : State) (r : RegIdx), exec i s = .next t → i.record.rd ≠ some r → t.x r = s.x r) ∧
  (∀ (i : Instr) (s t t' : State) (regs : Vector Word 32),
    (∀ r, i.record.rs1 = some r → regRead regs r = s.x r) → (∀ r, i.record.rs2 = some r → regRead regs r = s.x r) →
    exec i s = .next t → exec i { s with regs := regs } = .next t' →
    t'.pc = t.pc ∧ t'.stores = t.stores ∧ t'.dPort = t.dPort ∧ ∀ r, i.record.rd = some r → t'.x r = t.x r)

/-! ## ALU and BranchUnit -/

/-- R120, R121, R122: the ALU's table in exact arithmetic: sums and differences modulo 2^32, comparisons giving 0 or 1,
shifts by `b mod 32`, and 0 with `valid` false for the six selectors that name no operation. -/
def Obligations.AluComputesItsTable : Prop :=
  ∀ a b : Word,
    (alu a b 0).1.toNat = (a.toNat + b.toNat) % 2 ^ 32 ∧
    ((alu a b 8).1.toNat : Int) = ((a.toNat : Int) - b.toNat) % 2 ^ 32 ∧
    (alu a b 1).1.toNat = a.toNat * 2 ^ (b.toNat % 32) % 2 ^ 32 ∧
    (alu a b 2).1 = (if a.toInt < b.toInt then 1 else 0) ∧
    (alu a b 3).1 = (if a.toNat < b.toNat then 1 else 0) ∧
    (∀ k, (alu a b 4).1.getLsbD k = (a.getLsbD k ^^ b.getLsbD k)) ∧
    (alu a b 5).1.toNat = a.toNat / 2 ^ (b.toNat % 32) ∧
    (alu a b 13).1.toInt = a.toInt / 2 ^ (b.toNat % 32) ∧
    (∀ k, (alu a b 6).1.getLsbD k = (a.getLsbD k || b.getLsbD k)) ∧
    (∀ k, (alu a b 7).1.getLsbD k = (a.getLsbD k && b.getLsbD k)) ∧
    (∀ op ∈ [0#4, 1#4, 2#4, 3#4, 4#4, 5#4, 6#4, 7#4, 8#4, 13#4], (alu a b op).2 = true) ∧
    (∀ op ∈ [9#4, 10#4, 11#4, 12#4, 14#4, 15#4], alu a b op = (0, false))

/-- R170: the BranchUnit's table, signed and unsigned; the two codes that name no comparison are not valid. -/
def Obligations.BranchUnitDecidesItsTable : Prop :=
  ∀ a b : Word,
    branchUnit a b 0b000 = some (decide (a = b)) ∧ branchUnit a b 0b001 = some (decide (a ≠ b)) ∧
    branchUnit a b 0b100 = some (decide (a.toInt < b.toInt)) ∧ branchUnit a b 0b101 = some (decide (a.toInt ≥ b.toInt)) ∧
    branchUnit a b 0b110 = some (decide (a.toNat < b.toNat)) ∧ branchUnit a b 0b111 = some (decide (a.toNat ≥ b.toNat)) ∧
    branchUnit a b 0b010 = none ∧ branchUnit a b 0b011 = none

/-! ## The instructions, each with its encoding, its completion from every state, its result and its frame -/

/-- R124, R125: ADD and SUB, modulo 2^32. -/
def Obligations.AddAndSubtract : Prop :=
  RegRule .add 0b0000000 0b000 0 (fun a b => BitVec.ofNat 32 (a.toNat + b.toNat)) ∧
  RegRule .sub 0b0100000 0b000 8 (fun a b => signedWord ((a.toNat : Int) - b.toNat))

/-- R126, R130, R131: SLL, SRL, SRA by the low five bits of `x[rs2]`. -/
def Obligations.RegisterShifts : Prop :=
  RegRule .sll 0b0000000 0b001 1 (fun a b => BitVec.ofNat 32 (a.toNat * 2 ^ (b.toNat % 32))) ∧
  RegRule .srl 0b0000000 0b101 5 (fun a b => BitVec.ofNat 32 (a.toNat / 2 ^ (b.toNat % 32))) ∧
  RegRule .sra 0b0100000 0b101 13 (fun a b => signedWord (a.toInt / 2 ^ (b.toNat % 32)))

/-- R127, R128: SLT compares signed, SLTU unsigned; the result is 0 or 1. -/
def Obligations.RegisterCompares : Prop :=
  RegRule .slt 0b0000000 0b010 2 (fun a b => if a.toInt < b.toInt then 1 else 0) ∧
  RegRule .sltu 0b0000000 0b011 3 (fun a b => if a.toNat < b.toNat then 1 else 0)

/-- R129, R132, R133: XOR, OR, AND. -/
def Obligations.RegisterLogic : Prop :=
  RegRule .xor 0b0000000 0b100 4 (fun a b => a ^^^ b) ∧ RegRule .or 0b0000000 0b110 6 (fun a b => a ||| b) ∧
  RegRule .and 0b0000000 0b111 7 (fun a b => a &&& b)

/-- R141, R144, R145, R146: ADDI (never a subtraction, whatever `inst[30]`), XORI, ORI, ANDI. -/
def Obligations.ImmediateAddAndLogic : Prop :=
  ImmRule .addi 0b000 0 (fun a b => BitVec.ofNat 32 (a.toNat + b.toNat)) ∧ ImmRule .xori 0b100 4 (fun a b => a ^^^ b) ∧
  ImmRule .ori 0b110 6 (fun a b => a ||| b) ∧ ImmRule .andi 0b111 7 (fun a b => a &&& b)

/-- R142, R143: SLTI compares signed; SLTIU compares with the sign-extended immediate as unsigned. -/
def Obligations.ImmediateCompares : Prop :=
  ImmRule .slti 0b010 2 (fun a b => if a.toInt < b.toInt then 1 else 0) ∧
  ImmRule .sltiu 0b011 3 (fun a b => if a.toNat < b.toNat then 1 else 0)

/-- R147, R148, R149: SLLI, SRLI, SRAI; and a word with SLLI's funct3 and `inst[30]` = 1 is not SLLI but reserved. That the
record's decoded `imm` is the shift amount is the spec's own decision D20 (R88; log entry 17), so the basis is derived. -/
def Obligations.ImmediateShifts : Prop :=
  ShiftRule .slli 0b0000000 0b001 1 (fun a n => BitVec.ofNat 32 (a.toNat * 2 ^ n)) ∧
  ShiftRule .srli 0b0000000 0b101 5 (fun a n => BitVec.ofNat 32 (a.toNat / 2 ^ n)) ∧
  ShiftRule .srai 0b0100000 0b101 13 (fun a n => signedWord (a.toInt / 2 ^ n)) ∧
  (∀ w : Word, w.extractLsb' 0 7 = 0b0010011#7 → w.extractLsb' 12 3 = 0b001#3 → w.extractLsb' 30 1 = 1#1 →
    decode w = .reservedAlu (rdOf w) 9)

/-- R155, R156: LUI writes `imm20 * 2^12`, AUIPC that plus its own address, modulo 2^32. -/
def Obligations.UpperImmediates : Prop :=
  ∀ (rd : RegIdx) (imm20 : BitVec 20),
    (EncodedAs (.lui rd imm20) (imm20 ++ regBits rd ++ 0b0110111#7)
        ⟨.alu, none, none, some rd, 0, some (BitVec.ofNat 32 (imm20.toNat * 2 ^ 12)), false, false⟩ ∧
      RetiresFromExecute (.lui rd imm20) ∧
      ∀ s, ∃ t, exec (.lui rd imm20) s = .next t ∧
        RegisterEffect rd (BitVec.ofNat 32 (imm20.toNat * 2 ^ 12)) (s.pc + 4) s t) ∧
    (EncodedAs (.auipc rd imm20) (imm20 ++ regBits rd ++ 0b0010111#7)
        ⟨.auipc, none, none, some rd, 0, some (BitVec.ofNat 32 (imm20.toNat * 2 ^ 12)), false, false⟩ ∧
      RetiresFromExecute (.auipc rd imm20) ∧
      ∀ s, ∃ t, exec (.auipc rd imm20) s = .next t ∧
        RegisterEffect rd (BitVec.ofNat 32 (s.pc.toNat + imm20.toNat * 2 ^ 12)) (s.pc + 4) s t)

/-- R160: JAL links `pc + 4` and goes to `pc + offset`, no bit cleared. -/
def Obligations.JumpAndLink : Prop :=
  ∀ (rd : RegIdx) (off : BitVec 21),
    (off.getLsbD 0 = false →
      EncodedAs (.jal rd off)
        (off.extractLsb' 20 1 ++ off.extractLsb' 1 10 ++ off.extractLsb' 11 1 ++ off.extractLsb' 12 8 ++ regBits rd ++
          0b1101111#7)
        ⟨.j, none, none, some rd, 0, some (signedWord off.toInt), false, false⟩ ∧
      RetiresFromExecute (.jal rd off)) ∧
    ∀ s, ∃ t, exec (.jal rd off) s = .next t ∧ RegisterEffect rd (s.pc + 4) (s.pc + signedWord off.toInt) s t

/-- R161: JALR links `pc + 4` and goes to the plain sum `x[rs1] + offset` with the old `x[rs1]`, bit 0 included; its
funct3 is not examined. -/
def Obligations.JumpAndLinkRegister : Prop :=
  ∀ (rd rs1 : RegIdx) (imm : BitVec 12),
    EncodedAs (.jalr rd rs1 imm) (imm ++ regBits rs1 ++ 0b000#3 ++ regBits rd ++ 0b1100111#7)
      ⟨.jr, some rs1, none, some rd, 0, some (signedWord imm.toInt), false, false⟩ ∧
    RetiresFromExecute (.jalr rd rs1 imm) ∧
    (∀ s, ∃ t, exec (.jalr rd rs1 imm) s = .next t ∧ RegisterEffect rd (s.pc + 4) (s.x rs1 + signedWord imm.toInt) s t) ∧
    (∀ w : Word, w.extractLsb' 0 7 = 0b1100111#7 → decode w = .instr (.jalr (rdOf w) (rs1Of w) (immIOf w)))

/-- R172 to R178: the six conditional branches. -/
def Obligations.ConditionalBranches : Prop :=
  BranchRule .beq 0b000 (fun a b => decide (a = b)) ∧ BranchRule .bne 0b001 (fun a b => decide (a ≠ b)) ∧
  BranchRule .blt 0b100 (fun a b => decide (a.toInt < b.toInt)) ∧
  BranchRule .bge 0b101 (fun a b => decide (a.toInt ≥ b.toInt)) ∧
  BranchRule .bltu 0b110 (fun a b => decide (a.toNat < b.toNat)) ∧
  BranchRule .bgeu 0b111 (fun a b => decide (a.toNat ≥ b.toNat))

/-- R186: LW puts the whole word at the index of `x[rs1] + imm_I` into `rd`, with the old `x[rs1]`; memory and every other
register are as before. At the cycle level it goes from EXECUTE to WRITE with nothing committed, waits there for the
acknowledge, and commits the register and the pc together with the data it then sees. -/
def Obligations.LoadWord : Prop :=
  ∀ (rd rs1 : RegIdx) (imm : BitVec 12),
    EncodedAs (.lw rd rs1 imm) (imm ++ regBits rs1 ++ 0b010#3 ++ regBits rd ++ 0b0000011#7)
      ⟨.ld, some rs1, none, some rd, 0, some (signedWord imm.toInt), true, false⟩ ∧
    (∀ s : State, ∃ t, exec (.lw rd rs1 imm) s = .next t ∧ Committed (s.pc + 4) t ∧
      t.x rd = (if rd = 0 then 0 else s.memRead .data (s.x rs1 + signedWord imm.toInt)) ∧ SameRegsBut rd s t ∧
      SameBytes s t ∧ SameControl s t ∧ t.dPort = ⟨s.dPort.ack, s.memRead .data (s.x rs1 + signedWord imm.toInt)⟩) ∧
    (∀ (s : State) (ir dr : PortResponse), s.inst = encode (.lw rd rs1 imm) →
      (s.fsm = .execute → coreTick ir dr s = .next { s with fsm := .write, retired := false }) ∧
      (s.fsm = .write → dr.acknowledge = false → coreTick ir dr s = .next { s with retired := false }) ∧
      (s.fsm = .write → dr.acknowledge = true → coreTick ir dr s = .next ((s.writeX rd dr.readData).retire (s.pc + 4))))

/-- R187: SW replaces the four bytes of the word at the index of `x[rs1] + imm_S` with `x[rs2]`; every byte outside that word
reads as before through either port, and no register changes. Under `split` the instruction port's store is untouched.
At the cycle level it goes from EXECUTE to WRITE with nothing committed, waits there, and commits on the acknowledge. -/
def Obligations.StoreWord : Prop :=
  ∀ (rs1 rs2 : RegIdx) (imm : BitVec 12),
    EncodedAs (.sw rs1 rs2 imm)
      (imm.extractLsb' 5 7 ++ regBits rs2 ++ regBits rs1 ++ 0b010#3 ++ imm.extractLsb' 0 5 ++ 0b0100011#7)
      ⟨.st, some rs1, some rs2, none, 0, some (signedWord imm.toInt), true, true⟩ ∧
    (∀ (s : State) (k : Nat), s.index (s.x rs1 + signedWord imm.toInt) = k →
      ∃ t, exec (.sw rs1 rs2 imm) s = .next t ∧ Committed (s.pc + 4) t ∧ SameRegs s t ∧
        (∀ j < 4, t.byteAt .data (4 * k + j) = (s.x rs2).extractLsb' (8 * j) 8) ∧
        (∀ p a, a < 4 * k ∨ 4 * k + 4 ≤ a → t.byteAt p a = s.byteAt p a) ∧
        (s.stores.topology = .split → ∀ a, t.byteAt .instr a = s.byteAt .instr a) ∧
        (s.stores.topology = .unified → ∀ a, t.byteAt .instr a = t.byteAt .data a) ∧
        SameControl s t ∧ t.dPort = ⟨s.dPort.ack, s.memRead .data (s.x rs1 + signedWord imm.toInt)⟩) ∧
    (∀ (s : State) (ir dr : PortResponse), s.inst = encode (.sw rs1 rs2 imm) →
      (s.fsm = .execute → coreTick ir dr s = .next { s with fsm := .write, retired := false }) ∧
      (s.fsm = .write → dr.acknowledge = false → coreTick ir dr s = .next { s with retired := false }) ∧
      (s.fsm = .write → dr.acknowledge = true → coreTick ir dr s = .next (s.retire (s.pc + 4))))

/-- The expansions of R111 (which the spec gives as general knowledge; log entry 20) do what their names say, all of them,
the two-instruction LI and CALL among them. -/
def Obligations.PseudoInstructionsDoWhatTheySay : Prop :=
  ∀ s : State,
    (∃ t, execAll (Pseudo.nop).expand s = .next t ∧ PcEffect (s.pc + 4) s t) ∧
    (∀ rd rs, ∃ t, execAll (Pseudo.mv rd rs).expand s = .next t ∧ RegisterEffect rd (s.x rs) (s.pc + 4) s t) ∧
    (∀ rd imm, ∃ t, execAll (Pseudo.li rd imm).expand s = .next t ∧
      RegisterEffect rd (signedWord imm.toInt) (s.pc + 4) s t) ∧
    (∀ rd imm, ∃ t, execAll (Pseudo.liAny rd imm).expand s = .next t ∧ RegisterEffect rd imm (s.pc + 8) s t) ∧
    (∀ rd rs, ∃ t, execAll (Pseudo.not rd rs).expand s = .next t ∧ RegisterEffect rd (~~~(s.x rs)) (s.pc + 4) s t) ∧
    (∀ rd rs, ∃ t, execAll (Pseudo.neg rd rs).expand s = .next t ∧ RegisterEffect rd (-(s.x rs)) (s.pc + 4) s t) ∧
    (∀ rd rs, ∃ t, execAll (Pseudo.seqz rd rs).expand s = .next t ∧
      RegisterEffect rd (if s.x rs = 0 then 1 else 0) (s.pc + 4) s t) ∧
    (∀ rd rs, ∃ t, execAll (Pseudo.snez rd rs).expand s = .next t ∧
      RegisterEffect rd (if s.x rs ≠ 0 then 1 else 0) (s.pc + 4) s t) ∧
    (∀ rd rs, ∃ t, execAll (Pseudo.sltz rd rs).expand s = .next t ∧
      RegisterEffect rd (if (s.x rs).toInt < 0 then 1 else 0) (s.pc + 4) s t) ∧
    (∀ rd rs, ∃ t, execAll (Pseudo.sgtz rd rs).expand s = .next t ∧
      RegisterEffect rd (if (s.x rs).toInt > 0 then 1 else 0) (s.pc + 4) s t) ∧
    (∀ (rs rt : RegIdx) (off : BitVec 13),
      let goes := fun (p : Pseudo) (taken : Bool) => ∃ t, execAll p.expand s = .next t ∧
        PcEffect (if taken then s.pc + signedWord off.toInt else s.pc + 4) s t
      goes (.beqz rs off) (s.x rs = 0) ∧ goes (.bnez rs off) (s.x rs ≠ 0) ∧
      goes (.blez rs off) ((s.x rs).toInt ≤ 0) ∧ goes (.bgez rs off) ((s.x rs).toInt ≥ 0) ∧
      goes (.bltz rs off) ((s.x rs).toInt < 0) ∧ goes (.bgtz rs off) ((s.x rs).toInt > 0) ∧
      goes (.bgt rs rt off) ((s.x rs).toInt > (s.x rt).toInt) ∧ goes (.ble rs rt off) ((s.x rs).toInt ≤ (s.x rt).toInt) ∧
      goes (.bgtu rs rt off) ((s.x rs).toNat > (s.x rt).toNat) ∧ goes (.bleu rs rt off) ((s.x rs).toNat ≤ (s.x rt).toNat)) ∧
    (∀ off, ∃ t, execAll (Pseudo.j off).expand s = .next t ∧ PcEffect (s.pc + signedWord off.toInt) s t) ∧
    (∀ off, ∃ t, execAll (Pseudo.jal off).expand s = .next t ∧
      RegisterEffect 1 (s.pc + 4) (s.pc + signedWord off.toInt) s t) ∧
    (∀ rs, ∃ t, execAll (Pseudo.jr rs).expand s = .next t ∧ PcEffect (s.x rs) s t) ∧
    (∀ rs, ∃ t, execAll (Pseudo.jalr rs).expand s = .next t ∧ RegisterEffect 1 (s.pc + 4) (s.x rs) s t) ∧
    (∃ t, execAll (Pseudo.ret).expand s = .next t ∧ PcEffect (s.x 1) s t) ∧
    (∀ off, ∃ t, execAll (Pseudo.call off).expand s = .next t ∧ RegisterEffect 1 (s.pc + 8) (s.pc + off) s t)

/-! ## Rules over all instructions -/

/-- Only SW writes memory, and only LW and SW use the data port (R56, R97): after any other instruction every byte reads as
before and the data port's registers are as they were. -/
def Obligations.OnlyLoadsAndStoresTouchTheDataPort : Prop :=
  ∀ (i : Instr) (s t : State), exec i s = .next t →
    (i.record.memOpStore = false → SameBytes s t) ∧ (i.record.memOpEn = false → t.dPort = s.dPort)

/-- Every instruction of the table completes from every state: it retires, back in FETCH, with the parameters, the topology
and the latched word as they were (R230, R240: no mode, no exception, no operand value stops it). -/
def Obligations.EveryInstructionCompletes : Prop :=
  ∀ (i : Instr) (s : State), ∃ t, exec i s = .next t ∧ t.fsm = .fetch ∧ t.retired = true ∧ SameControl s t

/-- JAL and the branches preserve `pc[0]` (43_jumps.md R160 and 44_branches.md R172, corner cases), and so does every other
instruction but JALR; those that fall through preserve both low bits (10_state.md R17). -/
def Obligations.OnlyJalrChangesTheLowestPcBit : Prop :=
  ∀ (i : Instr) (s t : State), i.wellFormed = true → exec i s = .next t →
    (i.record.itype ≠ .jr → t.pc.getLsbD 0 = s.pc.getLsbD 0) ∧
    (i.record.itype ∉ [.j, .jr, .br] → t.pc = s.pc + 4 ∧ t.pc.extractLsb' 0 2 = s.pc.extractLsb' 0 2)

/-! ## Memory -/

/-- R44, R47: the word index of an address is `address[STORE_INDEX_BITS+1 : 2]`; the low two bits never take part, in a
read, a write or a fetch. With 30 index bits two addresses share an index exactly when they differ in the low two bits only. -/
def Obligations.AddressSelectsAWord : Prop :=
  (∀ (bits : Nat) (a : Word), bits ≤ 30 → storeIndex bits a = (a.extractLsb' 2 bits).toNat) ∧
  (∀ (s : State) (p : PortId) (a v : Word),
    s.memRead p a = s.memRead p (a &&& ~~~(3 : Word)) ∧ s.memWrite p a v = s.memWrite p (a &&& ~~~(3 : Word)) v ∧
    State.fetchWord { s with pc := a } = State.fetchWord { s with pc := a &&& ~~~(3 : Word) }) ∧
  (∀ a b : Word, storeIndex 30 a = storeIndex 30 b ↔ a &&& ~~~(3 : Word) = b &&& ~~~(3 : Word))

/-- R45: a read returns all 32 bits of the word and a write replaces all 32 bits: after a write through a port, a read
through it returns the value at every address of the same index and the old word at every other. -/
def Obligations.ReadAfterWriteOfAWholeWord : Prop :=
  ∀ (s : State) (p : PortId) (a b v : Word),
    (s.memWrite p b v).memRead p a = (if s.index a = s.index b then v else s.memRead p a) ∧
    (∀ q c, c / 4 ≠ s.index b → (s.memWrite p b v).byteAt q c = s.byteAt q c)

/-- An LW after an SW to the same word returns the stored value (45_load_store.md R188, 20_memory.md R58), and an LW of
another word returns what it would have returned before the SW. -/
def Obligations.LoadAfterStoreReturnsTheValue : Prop :=
  ∀ (s t u : State) (rs1 rs2 rd base : RegIdx) (imm off : BitVec 12), rd ≠ 0 →
    exec (.sw rs1 rs2 imm) s = .next t → exec (.lw rd base off) t = .next u →
    u.x rd = if s.index (s.x base + signedWord off.toInt) = s.index (s.x rs1 + signedWord imm.toInt) then s.x rs2
      else s.memRead .data (s.x base + signedWord off.toInt)

/-- R62: under `unified` a store is seen by every later fetch, the very next one included; under `split` a store never
reaches the instruction store. -/
def Obligations.StoresAndInstructionFetch : Prop :=
  ∀ (s t : State) (rs1 rs2 : RegIdx) (imm : BitVec 12), exec (.sw rs1 rs2 imm) s = .next t →
    (s.stores.topology = .unified →
      (∀ a, t.memRead .instr a =
        if s.index a = s.index (s.x rs1 + signedWord imm.toInt) then s.x rs2 else s.memRead .instr a) ∧
      t.fetchWord = t.memRead .instr (s.pc + 4)) ∧
    (s.stores.topology = .split → ∀ a, t.memRead .instr a = s.memRead .instr a)

/-- R255: the image is loaded verbatim, word `i` at the index of `RESET_ADDR + 4*i` of the store the instruction port
reaches, for every image that fits the store; nothing else is loaded, and under `split` the data store receives no image.
The first fetch finds the first word. -/
def Obligations.ImageIsLoadedAtTheResetAddress : Prop :=
  ∀ (p : Params) (topology : Topology) (image : List Word), image.length ≤ 2 ^ p.storeIndexBits → p.storeIndexBits ≤ 30 →
    (∀ (i : Nat) (h : i < image.length),
      (State.construct p topology image).memRead .instr (p.resetAddr + BitVec.ofNat 32 (4 * i)) = image[i]) ∧
    (∀ a : Nat, (∀ i < image.length, a / 4 ≠ storeIndex p.storeIndexBits (p.resetAddr + BitVec.ofNat 32 (4 * i))) →
      ((State.construct p topology image).stores.reach .instr).byte? a = none) ∧
    (topology = .split → (State.construct p topology image).stores.reach .data = []) ∧
    (∀ w rest, image = w :: rest → (State.construct p topology image).fetchWord = w)

/-- R46's byte order: the words of a byte-stream image are little-endian, so a loaded image's bytes stand in the listing in
the stream's order. -/
def Obligations.ImageBytesAreLittleEndian : Prop :=
  ∀ (b0 b1 b2 b3 : Byte) (rest : List Byte),
    imageOfBytes (b0 :: b1 :: b2 :: b3 :: rest) = (b3 ++ b2 ++ b1 ++ b0 : Word) :: imageOfBytes rest ∧
    ∀ (s : State) (p : PortId) (a : Word), ∀ j < 4,
      (s.memWrite p a (b3 ++ b2 ++ b1 ++ b0 : Word)).byteAt p (4 * s.index a + j) = [b0, b1, b2, b3].getD j 0

/-! ## Bus -/

/-- R49: the granted port is the lowest one that requests, and there is a grant exactly when some port requests. -/
def Obligations.ArbiterGrantsTheLowestRequester : Prop :=
  ∀ (n : Nat) (req : Fin n → BusRequest) (regs : Fin n → PortRegs),
    (∀ p, grant req regs = some p ↔
      ((req p).cycle = true ∧ (req p).strobe = true ∧ (regs p).ack = false) ∧
      ∀ q < p, ¬((req q).cycle = true ∧ (req q).strobe = true ∧ (regs q).ack = false)) ∧
    (grant req regs = none ↔ ∀ p, ¬((req p).cycle = true ∧ (req p).strobe = true ∧ (regs p).ack = false))

/-- R50, R51, R52: after a tick a port's `ack` is 1 exactly if it was granted, so at most one is; its `rdata` is then the
addressed word of the store before the tick, else as it was; the store takes the data of a port that is writing in its
acknowledge cycle, at the addressed word only, and is unchanged when no port is. -/
def Obligations.ArbiterTickUpdatesItsState : Prop :=
  ∀ (n bits : Nat) (init : Nat → Byte) (store : Memory) (req : Fin n → BusRequest) (regs : Fin n → PortRegs),
    (∀ p, ((arbiterPort bits init store req regs p).ack = true ↔ grant req regs = some p) ∧
      (grant req regs = some p → (arbiterPort bits init store req regs p).rdata =
        store.wordAt init (storeIndex bits (req p).address)) ∧
      (grant req regs ≠ some p → (arbiterPort bits init store req regs p).rdata = (regs p).rdata)) ∧
    (∀ p q, (arbiterPort bits init store req regs p).ack = true → (arbiterPort bits init store req regs q).ack = true →
      p = q) ∧
    (∀ p, (req p).cycle = true → (req p).strobe = true → (req p).writeEnable = true → (regs p).ack = true →
      (∀ q, q ≠ p → (regs q).ack = false) → ∀ k, (arbiterStore bits store req regs).wordAt init k =
        if k = storeIndex bits (req p).address then (req p).writeData else store.wordAt init k) ∧
    ((∀ p, ¬((req p).cycle = true ∧ (req p).strobe = true ∧ (req p).writeEnable = true ∧ (regs p).ack = true)) →
      arbiterStore bits store req regs = store)

/-- R207, R208: what the core drives on its two ports in each state, and so never both in one cycle (20_memory.md R55). -/
def Obligations.PortRequestsOfEachState : Prop :=
  ∀ s : State,
    (s.fsm = .fetch → s.iRequest = ⟨s.pc, 0, false, true, true⟩ ∧ s.dRequest = ⟨0, 0, false, false, false⟩) ∧
    (s.fsm = .execute → s.iRequest = ⟨0, 0, false, false, false⟩ ∧ s.dRequest = ⟨0, 0, false, false, false⟩) ∧
    (s.fsm = .write → s.iRequest = ⟨0, 0, false, false, false⟩ ∧
      (∀ rd rs1 imm, decode s.inst = .instr (.lw rd rs1 imm) →
        s.dRequest = ⟨s.x rs1 + sext12 imm, s.x (rs2Of s.inst), false, true, true⟩) ∧
      (∀ rs1 rs2 imm, decode s.inst = .instr (.sw rs1 rs2 imm) →
        s.dRequest = ⟨s.x rs1 + sext12 imm, s.x rs2, true, true, true⟩))

/-! ## Sequencer -/

/-- R202: in FETCH the core latches the word and goes to EXECUTE on an acknowledge, and waits without one; the pc and the
registers are as before and nothing retires. -/
def Obligations.FetchStateOfTheCore : Prop :=
  ∀ (s : State) (ir dr : PortResponse), s.fsm = .fetch →
    (ir.acknowledge = true → coreTick ir dr s = .next { s with inst := ir.readData, fsm := .execute, retired := false }) ∧
    (ir.acknowledge = false → coreTick ir dr s = .next { s with retired := false })

/-- R20: `retired` is 1 after a tick exactly when that tick was a commit: from EXECUTE with no memory operation latched, or
from WRITE with the data port's acknowledge. -/
def Obligations.RetiredPulsesOncePerCommit : Prop :=
  ∀ s t : State, s.coherent → tick false s = .next t →
    (t.retired = true ↔
      (s.fsm = .execute ∧ s.latchedMemOp = false) ∨ (s.fsm = .write ∧ s.dPort.ack = true)) ∧
    (t.retired = false → t.pc = s.pc ∧ t.regs = s.regs ∧ t.stores = s.stores)

/-- R211: however long a port takes, the core holds its request and its state and waits: any number of cycles without the
acknowledge it is waiting for changes nothing but the pulse. -/
def Obligations.CoreWaitsForTheAcknowledge : Prop :=
  ∀ (s : State) (responses : List (PortResponse × PortResponse)), s.retired = false →
    (s.fsm = .fetch → (∀ r ∈ responses, r.1.acknowledge = false) → coreRun responses s = .next s) ∧
    (s.fsm = .write → s.latchedMemOp = true → (∀ r ∈ responses, r.2.acknowledge = false) → coreRun responses s = .next s)

/-- The last sentence of R215: with any latencies of one or more on the two ports, the core passes from FETCH to the commit
of the instruction whose word it is given, in `Li + 2` cycles for a non-memory word and `Li + Ld + 3` for a load or store,
with the effect of the instruction-level rule on pc and registers, when the data port answers with the addressed word. -/
def Obligations.CoreToleratesAnyLatency : Prop :=
  ∀ (s : State) (i : Instr) (waitI waitD : List (PortResponse × PortResponse)) (any : PortResponse) (t : State),
    s.fsm = .fetch → i.wellFormed = true →
    (∀ r ∈ waitI, r.1.acknowledge = false) → (∀ r ∈ waitD, r.2.acknowledge = false) → exec i s = .next t →
    (i.record.memOpEn = false →
      ∃ u, coreRun (waitI ++ [(⟨encode i, true⟩, any), (any, any)]) s = .next u ∧
        u.pc = t.pc ∧ u.regs = t.regs ∧ u.fsm = .fetch ∧ u.retired = true ∧ u.inst = encode i) ∧
    (i.record.memOpEn = true →
      ∃ u, coreRun (waitI ++ [(⟨encode i, true⟩, any), (any, any)] ++ waitD ++ [(any, ⟨t.dPort.rdata, true⟩)]) s = .next u ∧
        u.pc = t.pc ∧ u.regs = t.regs ∧ u.fsm = .fetch ∧ u.retired = true ∧ u.inst = encode i)

/-- R215: from an instruction boundary, whatever word the pc names, the block's clocked run reaches the very state the
instruction-level step gives: after three ticks, or five if the word is a load or a store. Until then `retired` is 0 and the
pc, the registers and the stores keep their values. R215 speaks of canonical words only: that it holds of every other word
too is the model's, by log entries 5 (unknown opcodes), 10 and 11 (reserved selectors and conditions) and 12 (non-canonical
words). -/
def Obligations.TicksReachTheStep : Prop :=
  ∀ s : State, s.atBoundary = true →
    let n := if classOf s.fetchWord = some .load ∨ classOf s.fetchWord = some .store then 5 else 3
    ticks n s = step s ∧
    ∀ k, 0 < k → k < n → ∃ t, ticks k s = .next t ∧ t.retired = false ∧ t.pc = s.pc ∧ t.regs = s.regs ∧
      t.stores = s.stores ∧ t.atBoundary = false

/-- The liveness property of R265: in every cycle of a clocked run, within five ticks an instruction has retired and the
machine is at an instruction boundary, where UNKNOWN_OPCODE is `nop` or `havoc`. Under `refuse` see
`RefusedOpcodeStopsTheClockedRun`. That the words without a row retire too rests on log entries 5, 10, 11 and 12. -/
def Obligations.EveryCycleIsNearARetirement : Prop :=
  ∀ s : State, s.coherent → s.params.unknownOpcode ≠ .refuse →
    ∃ n t, 0 < n ∧ n ≤ 5 ∧ ticks n s = .next t ∧ t.retired = true ∧ t.atBoundary = true

/-- The liveness property of R265 where UNKNOWN_OPCODE is `refuse` (R105, D17; log entry 5): let the word in flight be the
one the pc names in FETCH, else the latched one. If it has an opcode class an instruction retires within five ticks all the
same; if it has none, the clocked run has no next state within three ticks, refused with that very word. -/
def Obligations.RefusedOpcodeStopsTheClockedRun : Prop :=
  ∀ s : State, s.coherent → s.params.unknownOpcode = .refuse →
    let w := if s.fsm = .fetch then s.fetchWord else s.inst
    (classOf w ≠ none → ∃ n t, 0 < n ∧ n ≤ 5 ∧ ticks n s = .next t ∧ t.retired = true ∧ t.atBoundary = true) ∧
    (classOf w = none → ∃ n, 0 < n ∧ n ≤ 3 ∧ ticks n s = .refused (.unknownOpcode w))

/-- What core and bus keep between them is kept by every tick, `rst` or not: acknowledges only on the port being requested,
at most one of them, the data that of the addressed word. -/
def Obligations.TicksKeepCoreAndBusCoherent : Prop :=
  ∀ (rst : Bool) (s t : State), s.coherent → tick rst s = .next t →
    t.coherent ∧ ¬(t.iPort.ack = true ∧ t.dPort.ack = true)

/-! ## The step -/

/-- At an instruction boundary, when the word the pc names decodes to an instruction, the step is that instruction's `exec`
on the state with the word latched in `inst` and in the instruction port's `rdata`; and the word `withFetchWord` places is
the one the next step runs. -/
def Obligations.StepRunsTheDecodedInstruction : Prop :=
  (∀ (s : State) (i : Instr), s.atBoundary = true → decode s.fetchWord = .instr i →
    step s = exec i { s with inst := s.fetchWord, iPort := ⟨s.iPort.ack, s.fetchWord⟩ }) ∧
  (∀ (s : State) (i : Instr), i.wellFormed = true →
    (s.withFetchWord 32 (encode i).toNat).atBoundary = true ∧ (s.withFetchWord 32 (encode i).toNat).fetchWord = encode i)

/-- R230, R246: the step never faults, and at an instruction boundary it gives no next state only for a word of no opcode
class under UNKNOWN_OPCODE = refuse. -/
def Obligations.StepStopsOnlyOnARefusedOpcode : Prop :=
  (∀ (s : State) (f : Fault), step s ≠ .fault f) ∧
  (∀ (s : State), s.atBoundary = true →
    ((∃ t, step s = .next t) ↔ ¬(s.params.unknownOpcode = .refuse ∧ classOf s.fetchWord = none))) ∧
  (∀ (s : State) (r : Refusal), s.atBoundary = true → step s = .refused r → r = .unknownOpcode s.fetchWord)

/-- From every state, reached or not, a step ends at an instruction boundary with `retired` up, and changes neither the
parameters nor the topology (R31, R215). -/
def Obligations.StepEndsAtABoundary : Prop :=
  ∀ s t : State, step s = .next t →
    t.atBoundary = true ∧ t.retired = true ∧ t.params = s.params ∧ t.stores.topology = s.stores.topology

/-- Every step keeps the state well formed: parameters in range, the slot of register zero 0, every store's listing canonical
and inside the store. -/
def Obligations.StepKeepsTheStateWellFormed : Prop :=
  ∀ s t : State, s.wf → step s = .next t → t.wf

/-- Every tick keeps the state well formed, `rst` or not. -/
def Obligations.TickKeepsTheStateWellFormed : Prop :=
  ∀ (rst : Bool) (s t : State), s.wf → tick rst s = .next t → t.wf

/-! ## Reset -/

/-- Construction with any parameters in range and any image gives a well-formed state at an instruction boundary, coherent
with the bus; `State.reset` is the construction with the model's default parameters and no image. -/
def Obligations.ConstructionIsWellFormed : Prop :=
  (∀ (p : Params) (topology : Topology) (image : List Word), p.wf →
    (State.construct p topology image).wf ∧ (State.construct p topology image).atBoundary = true ∧
    (State.construct p topology image).coherent) ∧
  State.construct Params.default .unified [] = State.reset ∧ State.reset.wf

/-- R252: in the first cycle after reset the state is FETCH, the pc is RESET_ADDR, nothing is acknowledged or retired, x0
reads 0, and the core requests the word at RESET_ADDR. -/
def Obligations.FirstCycleAfterReset : Prop :=
  ∀ (p : Params) (topology : Topology) (image : List Word),
    let s := State.construct p topology image
    s.fsm = .fetch ∧ s.pc = p.resetAddr ∧ s.iPort.ack = false ∧ s.dPort.ack = false ∧ s.retired = false ∧ s.x 0 = 0 ∧
      s.atBoundary = true ∧ s.iRequest = ⟨p.resetAddr, 0, false, true, true⟩

/-- R251, with R250 and R29: a tick with `rst` = 1 restarts the pc at RESET_ADDR in FETCH whatever the state was, drops any
transaction in flight, and does not reload, clear or otherwise change the stores. That x1 to x31 then hold REG_INIT, the same
values at every reset of a run, is the model's choice, log entry 7 (DEDUCED): D2 and R29 leave them unspecified. -/
def Obligations.ResetRestartsOverTheMemoryAsItIs : Prop :=
  ∀ s : State, ∃ t, tick true s = .next t ∧ t.pc = s.params.resetAddr ∧ t.fsm = .fetch ∧ t.retired = false ∧
    t.iPort.ack = false ∧ t.dPort.ack = false ∧ t.x 0 = 0 ∧ (∀ r, r ≠ 0 → t.x r = s.params.regInit[r]) ∧
    t.stores = s.stores ∧ SameBytes s t ∧ t.params = s.params ∧ t.atBoundary = true

/-- R28: the debug surface shows the pc, the 32 registers with x0 reading 0, and the pulse. -/
def Obligations.DebugSurfaceShowsTheRegisters : Prop :=
  ∀ s : State, s.debugSurface.pc = s.pc ∧ s.debugSurface.retired = s.retired ∧ s.debugSurface.x[0] = 0 ∧
    ∀ r : RegIdx, s.debugSurface.x[r] = s.x r
end

