-- ==== Sys2Proof/Laws/State.lean ====
section
/-! SUPPORT. One lemma per field per update of the state, and the derived views (registers, bytes) of each update. -/

namespace Sys2Proof.Machine

variable (s : State)

/-! `writeX` -/

@[simp] theorem writeX_params (i : RegIdx) (v : Word) : (s.writeX i v).params = s.params := rfl
@[simp] theorem writeX_pc (i : RegIdx) (v : Word) : (s.writeX i v).pc = s.pc := rfl
@[simp] theorem writeX_regs (i : RegIdx) (v : Word) : (s.writeX i v).regs = regWrite s.regs i v := rfl
@[simp] theorem writeX_fsm (i : RegIdx) (v : Word) : (s.writeX i v).fsm = s.fsm := rfl
@[simp] theorem writeX_inst (i : RegIdx) (v : Word) : (s.writeX i v).inst = s.inst := rfl
@[simp] theorem writeX_retired (i : RegIdx) (v : Word) : (s.writeX i v).retired = s.retired := rfl
@[simp] theorem writeX_iPort (i : RegIdx) (v : Word) : (s.writeX i v).iPort = s.iPort := rfl
@[simp] theorem writeX_dPort (i : RegIdx) (v : Word) : (s.writeX i v).dPort = s.dPort := rfl
@[simp] theorem writeX_stores (i : RegIdx) (v : Word) : (s.writeX i v).stores = s.stores := rfl
@[simp] theorem writeX_freeCount (i : RegIdx) (v : Word) : (s.writeX i v).freeCount = s.freeCount := rfl

/-! `memWrite` -/

@[simp] theorem memWrite_params (p : PortId) (a v : Word) : (s.memWrite p a v).params = s.params := rfl
@[simp] theorem memWrite_pc (p : PortId) (a v : Word) : (s.memWrite p a v).pc = s.pc := rfl
@[simp] theorem memWrite_regs (p : PortId) (a v : Word) : (s.memWrite p a v).regs = s.regs := rfl
@[simp] theorem memWrite_fsm (p : PortId) (a v : Word) : (s.memWrite p a v).fsm = s.fsm := rfl
@[simp] theorem memWrite_inst (p : PortId) (a v : Word) : (s.memWrite p a v).inst = s.inst := rfl
@[simp] theorem memWrite_retired (p : PortId) (a v : Word) : (s.memWrite p a v).retired = s.retired := rfl
@[simp] theorem memWrite_iPort (p : PortId) (a v : Word) : (s.memWrite p a v).iPort = s.iPort := rfl
@[simp] theorem memWrite_dPort (p : PortId) (a v : Word) : (s.memWrite p a v).dPort = s.dPort := rfl
@[simp] theorem memWrite_stores (p : PortId) (a v : Word) : (s.memWrite p a v).stores = s.stores.putWord p (s.index a) v := rfl
@[simp] theorem memWrite_freeCount (p : PortId) (a v : Word) : (s.memWrite p a v).freeCount = s.freeCount := rfl

/-! `latchFetch` -/

@[simp] theorem latchFetch_params (w : Word) : (s.latchFetch w).params = s.params := rfl
@[simp] theorem latchFetch_pc (w : Word) : (s.latchFetch w).pc = s.pc := rfl
@[simp] theorem latchFetch_regs (w : Word) : (s.latchFetch w).regs = s.regs := rfl
@[simp] theorem latchFetch_fsm (w : Word) : (s.latchFetch w).fsm = s.fsm := rfl
@[simp] theorem latchFetch_inst (w : Word) : (s.latchFetch w).inst = w := rfl
@[simp] theorem latchFetch_retired (w : Word) : (s.latchFetch w).retired = s.retired := rfl
@[simp] theorem latchFetch_iPort (w : Word) : (s.latchFetch w).iPort = ⟨s.iPort.ack, w⟩ := rfl
@[simp] theorem latchFetch_dPort (w : Word) : (s.latchFetch w).dPort = s.dPort := rfl
@[simp] theorem latchFetch_stores (w : Word) : (s.latchFetch w).stores = s.stores := rfl
@[simp] theorem latchFetch_freeCount (w : Word) : (s.latchFetch w).freeCount = s.freeCount := rfl

/-! `latchData` -/

@[simp] theorem latchData_params (w : Word) : (s.latchData w).params = s.params := rfl
@[simp] theorem latchData_pc (w : Word) : (s.latchData w).pc = s.pc := rfl
@[simp] theorem latchData_regs (w : Word) : (s.latchData w).regs = s.regs := rfl
@[simp] theorem latchData_fsm (w : Word) : (s.latchData w).fsm = s.fsm := rfl
@[simp] theorem latchData_inst (w : Word) : (s.latchData w).inst = s.inst := rfl
@[simp] theorem latchData_retired (w : Word) : (s.latchData w).retired = s.retired := rfl
@[simp] theorem latchData_iPort (w : Word) : (s.latchData w).iPort = s.iPort := rfl
@[simp] theorem latchData_dPort (w : Word) : (s.latchData w).dPort = ⟨s.dPort.ack, w⟩ := rfl
@[simp] theorem latchData_stores (w : Word) : (s.latchData w).stores = s.stores := rfl
@[simp] theorem latchData_freeCount (w : Word) : (s.latchData w).freeCount = s.freeCount := rfl

/-! `retire` -/

@[simp] theorem retire_params (npc : Word) : (s.retire npc).params = s.params := rfl
@[simp] theorem retire_pc (npc : Word) : (s.retire npc).pc = npc := rfl
@[simp] theorem retire_regs (npc : Word) : (s.retire npc).regs = s.regs := rfl
@[simp] theorem retire_fsm (npc : Word) : (s.retire npc).fsm = .fetch := rfl
@[simp] theorem retire_inst (npc : Word) : (s.retire npc).inst = s.inst := rfl
@[simp] theorem retire_retired (npc : Word) : (s.retire npc).retired = true := rfl
@[simp] theorem retire_iPort (npc : Word) : (s.retire npc).iPort = s.iPort := rfl
@[simp] theorem retire_dPort (npc : Word) : (s.retire npc).dPort = s.dPort := rfl
@[simp] theorem retire_stores (npc : Word) : (s.retire npc).stores = s.stores := rfl
@[simp] theorem retire_freeCount (npc : Word) : (s.retire npc).freeCount = s.freeCount := rfl

/-! `drawn` -/

@[simp] theorem drawn_params (n : Nat) : (s.drawn n).params = s.params := rfl
@[simp] theorem drawn_pc (n : Nat) : (s.drawn n).pc = s.pc := rfl
@[simp] theorem drawn_regs (n : Nat) : (s.drawn n).regs = s.regs := rfl
@[simp] theorem drawn_fsm (n : Nat) : (s.drawn n).fsm = s.fsm := rfl
@[simp] theorem drawn_inst (n : Nat) : (s.drawn n).inst = s.inst := rfl
@[simp] theorem drawn_retired (n : Nat) : (s.drawn n).retired = s.retired := rfl
@[simp] theorem drawn_iPort (n : Nat) : (s.drawn n).iPort = s.iPort := rfl
@[simp] theorem drawn_dPort (n : Nat) : (s.drawn n).dPort = s.dPort := rfl
@[simp] theorem drawn_stores (n : Nat) : (s.drawn n).stores = s.stores := rfl
@[simp] theorem drawn_freeCount (n : Nat) : (s.drawn n).freeCount = s.freeCount + n := rfl

/-! `applyReset` -/

@[simp] theorem applyReset_params : (s.applyReset).params = s.params := rfl
@[simp] theorem applyReset_pc : (s.applyReset).pc = s.params.resetAddr := rfl
@[simp] theorem applyReset_regs : (s.applyReset).regs = s.params.regInit := rfl
@[simp] theorem applyReset_fsm : (s.applyReset).fsm = .fetch := rfl
@[simp] theorem applyReset_inst : (s.applyReset).inst = Config.freeWord s.freeCount := rfl
@[simp] theorem applyReset_retired : (s.applyReset).retired = false := rfl
@[simp] theorem applyReset_iPort : (s.applyReset).iPort = ⟨false, Config.freeWord (s.freeCount + 1)⟩ := rfl
@[simp] theorem applyReset_dPort : (s.applyReset).dPort = ⟨false, Config.freeWord (s.freeCount + 2)⟩ := rfl
@[simp] theorem applyReset_stores : (s.applyReset).stores = s.stores := rfl
@[simp] theorem applyReset_freeCount : (s.applyReset).freeCount = s.freeCount + 3 := rfl

/-! `placeWord` -/

@[simp] theorem placeWord_params (w : Word) : (s.placeWord w).params = s.params := rfl
@[simp] theorem placeWord_pc (w : Word) : (s.placeWord w).pc = s.pc := rfl
@[simp] theorem placeWord_regs (w : Word) : (s.placeWord w).regs = s.regs := rfl
@[simp] theorem placeWord_fsm (w : Word) : (s.placeWord w).fsm = .fetch := rfl
@[simp] theorem placeWord_inst (w : Word) : (s.placeWord w).inst = s.inst := rfl
@[simp] theorem placeWord_retired (w : Word) : (s.placeWord w).retired = s.retired := rfl
@[simp] theorem placeWord_iPort (w : Word) : (s.placeWord w).iPort = ⟨false, s.iPort.rdata⟩ := rfl
@[simp] theorem placeWord_dPort (w : Word) : (s.placeWord w).dPort = ⟨false, s.dPort.rdata⟩ := rfl
@[simp] theorem placeWord_stores (w : Word) : (s.placeWord w).stores = s.stores.putWord .instr (s.index s.pc) w := rfl
@[simp] theorem placeWord_freeCount (w : Word) : (s.placeWord w).freeCount = s.freeCount := rfl

/-! ## Views -/

@[simp] theorem x_memWrite (p : PortId) (a v : Word) (r : RegIdx) : (s.memWrite p a v).x r = s.x r := rfl
@[simp] theorem x_latchFetch (w : Word) (r : RegIdx) : (s.latchFetch w).x r = s.x r := rfl
@[simp] theorem x_latchData (w : Word) (r : RegIdx) : (s.latchData w).x r = s.x r := rfl
@[simp] theorem x_retire (npc : Word) (r : RegIdx) : (s.retire npc).x r = s.x r := rfl
@[simp] theorem x_drawn (n : Nat) (r : RegIdx) : (s.drawn n).x r = s.x r := rfl
@[simp] theorem x_placeWord (w : Word) (r : RegIdx) : (s.placeWord w).x r = s.x r := rfl

@[simp] theorem byteAt_writeX (i : RegIdx) (v : Word) (p : PortId) (a : Nat) : (s.writeX i v).byteAt p a = s.byteAt p a := rfl
@[simp] theorem byteAt_latchFetch (w : Word) (p : PortId) (a : Nat) : (s.latchFetch w).byteAt p a = s.byteAt p a := rfl
@[simp] theorem byteAt_latchData (w : Word) (p : PortId) (a : Nat) : (s.latchData w).byteAt p a = s.byteAt p a := rfl
@[simp] theorem byteAt_retire (npc : Word) (p : PortId) (a : Nat) : (s.retire npc).byteAt p a = s.byteAt p a := rfl
@[simp] theorem byteAt_drawn (n : Nat) (p : PortId) (a : Nat) : (s.drawn n).byteAt p a = s.byteAt p a := rfl
@[simp] theorem byteAt_applyReset (p : PortId) (a : Nat) : s.applyReset.byteAt p a = s.byteAt p a := rfl

@[simp] theorem memRead_writeX (i : RegIdx) (v : Word) (p : PortId) (a : Word) : (s.writeX i v).memRead p a = s.memRead p a := rfl
@[simp] theorem memRead_latchFetch (w : Word) (p : PortId) (a : Word) : (s.latchFetch w).memRead p a = s.memRead p a := rfl
@[simp] theorem memRead_latchData (w : Word) (p : PortId) (a : Word) : (s.latchData w).memRead p a = s.memRead p a := rfl
@[simp] theorem memRead_retire (npc : Word) (p : PortId) (a : Word) : (s.retire npc).memRead p a = s.memRead p a := rfl
@[simp] theorem memRead_drawn (n : Nat) (p : PortId) (a : Word) : (s.drawn n).memRead p a = s.memRead p a := rfl

@[simp] theorem index_writeX (i : RegIdx) (v a : Word) : (s.writeX i v).index a = s.index a := rfl
@[simp] theorem index_memWrite (p : PortId) (b v a : Word) : (s.memWrite p b v).index a = s.index a := rfl
@[simp] theorem index_latchFetch (w a : Word) : (s.latchFetch w).index a = s.index a := rfl
@[simp] theorem index_latchData (w a : Word) : (s.latchData w).index a = s.index a := rfl
@[simp] theorem index_retire (npc a : Word) : (s.retire npc).index a = s.index a := rfl

@[simp] theorem pc4_latchFetch (w : Word) : (s.latchFetch w).pc4 = s.pc4 := rfl
@[simp] theorem pc4_latchData (w : Word) : (s.latchData w).pc4 = s.pc4 := rfl
@[simp] theorem pc4_writeX (i : RegIdx) (v : Word) : (s.writeX i v).pc4 = s.pc4 := rfl
@[simp] theorem pc4_drawn (n : Nat) : (s.drawn n).pc4 = s.pc4 := rfl
@[simp] theorem pc4_memWrite (p : PortId) (a v : Word) : (s.memWrite p a v).pc4 = s.pc4 := rfl

@[simp] theorem drawn_zero : s.drawn 0 = s := rfl

@[simp] theorem atBoundary_latchFetch (w : Word) : (s.latchFetch w).atBoundary = s.atBoundary := rfl

/-- What a boundary is, in words a proof can use. -/
theorem atBoundary_iff : s.atBoundary = true ↔ s.fsm = .fetch ∧ s.iPort.ack = false ∧ s.dPort.ack = false := by
  simp [State.atBoundary, and_assoc]

/-- A commit from a state with no acknowledge up leads to a boundary. -/
theorem atBoundary_retire (npc : Word) (hi : s.iPort.ack = false) (hd : s.dPort.ack = false) :
    (s.retire npc).atBoundary = true := by
  simp [atBoundary_iff, hi, hd]

end Sys2Proof.Machine
end

