-- ==== Sys2Proof/Laws/Memory.lean ====
section
/-! SUPPORT. The stores: read after write, the canonical form, and what a word write leaves alone (spec 20_memory.md R44,
R45, R52). -/

namespace Sys2Proof.Machine

/-! ## Bytes of one store -/

theorem byte?_putByte (m : Memory) (a b : Nat) (v : Byte) :
    (m.putByte a v).byte? b = if b = a then some v else m.byte? b := by
  induction m with
  | nil => simp [Memory.putByte, Memory.byte?]
  | cons c m ih =>
    obtain ⟨k, w⟩ := c
    by_cases h1 : a < k
    · simp [Memory.putByte, Memory.byte?, h1]
    · by_cases h2 : a = k
      · subst h2; by_cases hb : b = a <;> simp [Memory.putByte, Memory.byte?, hb]
      · by_cases hk : b = k
        · subst hk
          have : ¬ b = a := fun e => h2 e.symm
          simp [Memory.putByte, Memory.byte?, h1, h2, this]
        · simp [Memory.putByte, Memory.byte?, h1, h2, hk, ih]

theorem mem_putByte {m : Memory} {a : Nat} {v : Byte} {c : Host.Cell} (h : c ∈ m.putByte a v) : c = (a, v) ∨ c ∈ m := by
  induction m with
  | nil => simpa [Memory.putByte] using h
  | cons d m ih =>
    simp only [Memory.putByte] at h
    split at h
    · simpa using h
    · split at h
      · rcases List.mem_cons.mp h with h | h
        · exact .inl h
        · exact .inr (List.mem_cons_of_mem _ h)
      · rcases List.mem_cons.mp h with h | h
        · exact .inr (by simp [h])
        · exact (ih h).imp_right (List.mem_cons_of_mem _)

/-- Writing a byte keeps the canonical form. -/
theorem putByte_wf {m : Memory} (a : Nat) (v : Byte) (h : m.wf) : (m.putByte a v).wf := by
  induction m with
  | nil => simp [Memory.putByte, Memory.wf]
  | cons c m ih =>
    obtain ⟨k, w⟩ := c
    have hm : Memory.wf m := (List.pairwise_cons.mp h).2
    have hk := (List.pairwise_cons.mp h).1
    simp only [Memory.putByte]
    split
    · rename_i hlt
      refine List.pairwise_cons.mpr ⟨fun d hd => ?_, h⟩
      rcases List.mem_cons.mp hd with rfl | hd
      · exact hlt
      · exact Nat.lt_trans hlt (hk d hd)
    · split
      · rename_i heq
        subst heq
        exact List.pairwise_cons.mpr ⟨hk, hm⟩
      · rename_i h1 h2
        refine List.pairwise_cons.mpr ⟨fun d hd => ?_, ih hm⟩
        rcases mem_putByte hd with rfl | hd
        · exact Nat.lt_of_le_of_ne (Nat.le_of_not_lt h1) (fun e => h2 e.symm)
        · exact hk d hd

theorem putByte_within {m : Memory} {bits a : Nat} (v : Byte) (h : m.within bits) (ha : a < 4 * 2 ^ bits) :
    (m.putByte a v).within bits := by
  intro c hc
  rcases mem_putByte hc with rfl | hc
  · exact ha
  · exact h c hc

theorem byteAt_putByte (init : Nat → Byte) (m : Memory) (a b : Nat) (v : Byte) :
    (m.putByte a v).byteAt init b = if b = a then v else m.byteAt init b := by
  unfold Memory.byteAt
  rw [byte?_putByte]
  split <;> rfl

/-! ## Words of one store -/

theorem putWord_wf {m : Memory} (k : Nat) (v : Word) (h : m.wf) : (m.putWord k v).wf :=
  putByte_wf _ _ (putByte_wf _ _ (putByte_wf _ _ (putByte_wf _ _ h)))

theorem putWord_within {m : Memory} {bits k : Nat} (v : Word) (h : m.within bits) (hk : k < 2 ^ bits) :
    (m.putWord k v).within bits :=
  putByte_within _ (putByte_within _ (putByte_within _ (putByte_within _ h (by omega)) (by omega)) (by omega)) (by omega)

/-- A byte of the word written: byte `a - 4k` of the value. -/
theorem byteAt_putWord_in (init : Nat → Byte) (m : Memory) (k j : Nat) (v : Word) (hj : j < 4) :
    (m.putWord k v).byteAt init (4 * k + j) = wordByte v j := by
  unfold Memory.putWord
  simp only [byteAt_putByte]
  interval_cases j <;> simp

/-- A byte outside the word written. -/
theorem byteAt_putWord_out (init : Nat → Byte) (m : Memory) (k a : Nat) (v : Word) (h : a / 4 ≠ k) :
    (m.putWord k v).byteAt init a = m.byteAt init a := by
  unfold Memory.putWord
  simp only [byteAt_putByte]
  have : a ≠ 4 * k ∧ a ≠ 4 * k + 1 ∧ a ≠ 4 * k + 2 ∧ a ≠ 4 * k + 3 := by omega
  simp [this]

/-- The four bytes of a word make the word. -/
theorem wordOfBytes_wordByte (v : Word) : wordOfBytes (wordByte v 0) (wordByte v 1) (wordByte v 2) (wordByte v 3) = v := by
  unfold wordOfBytes wordByte
  apply BitVec.eq_of_getLsbD_eq
  intro i hi
  simp only [BitVec.getLsbD_append, BitVec.getLsbD_extractLsb']
  interval_cases i <;> simp

/-- Read after write: the word of an index after any word is written. -/
theorem wordAt_putWord (init : Nat → Byte) (m : Memory) (k j : Nat) (v : Word) :
    (m.putWord k v).wordAt init j = if j = k then v else m.wordAt init j := by
  unfold Memory.wordAt
  split
  · rename_i h
    subst h
    have h0 := byteAt_putWord_in init m j 0 v (by omega)
    rw [Nat.add_zero] at h0
    rw [h0, byteAt_putWord_in init m j 1 v (by omega), byteAt_putWord_in init m j 2 v (by omega),
      byteAt_putWord_in init m j 3 v (by omega), wordOfBytes_wordByte]
  · rw [byteAt_putWord_out _ _ _ _ _ (by omega), byteAt_putWord_out _ _ _ _ _ (by omega),
      byteAt_putWord_out _ _ _ _ _ (by omega), byteAt_putWord_out _ _ _ _ _ (by omega)]

theorem storeIndex_lt (bits : Nat) (a : Word) : storeIndex bits a < 2 ^ bits := Nat.mod_lt _ (Nat.two_pow_pos bits)

/-! ## The block's stores -/

@[simp] theorem storeId_putWord (st : Stores) (p q : PortId) (k : Nat) (v : Word) :
    (st.putWord p k v).storeId q = st.storeId q := by
  cases st <;> cases p <;> cases q <;> rfl

@[simp] theorem topology_putWord (st : Stores) (p : PortId) (k : Nat) (v : Word) :
    (st.putWord p k v).topology = st.topology := by
  cases st <;> cases p <;> rfl

/-- Writing a word keeps every store canonical and within its size. -/
theorem stores_putWord_wf {st : Stores} {bits k : Nat} (p : PortId) (v : Word) (h : st.wf bits) (hk : k < 2 ^ bits) :
    (st.putWord p k v).wf bits := by
  cases st with
  | unified m => exact ⟨putWord_wf k v h.1, putWord_within v h.2 hk⟩
  | split i d =>
    cases p with
    | instr => exact ⟨⟨putWord_wf k v h.1.1, putWord_within v h.1.2 hk⟩, h.2⟩
    | data => exact ⟨h.1, ⟨putWord_wf k v h.2.1, putWord_within v h.2.2 hk⟩⟩

/-- A port that reaches the store written sees the word written. -/
theorem stores_wordAt_putWord (st : Stores) (p : PortId) (k j : Nat) (v : Word) :
    (st.putWord p k v).wordAt p j = if j = k then v else st.wordAt p j := by
  cases st <;> cases p <;> exact wordAt_putWord _ _ _ _ _

/-- Under `unified` every port sees a word written through any. -/
theorem unified_wordAt_putWord (m : Memory) (p q : PortId) (k j : Nat) (v : Word) :
    ((Stores.unified m).putWord p k v).wordAt q j = if j = k then v else (Stores.unified m).wordAt q j :=
  wordAt_putWord _ _ _ _ _

/-- Outside the word written no port sees a change. -/
theorem stores_byteAt_putWord_out (st : Stores) (p q : PortId) (k a : Nat) (v : Word) (h : a / 4 ≠ k) :
    (st.putWord p k v).byteAt q a = st.byteAt q a := by
  cases st <;> cases p <;> cases q <;>
    first | rfl | exact byteAt_putWord_out _ _ _ _ _ h

/-- Through the port that wrote, the bytes of the word written are the value's, least significant first. -/
theorem stores_byteAt_putWord_in (st : Stores) (p : PortId) (k j : Nat) (v : Word) (hj : j < 4) :
    (st.putWord p k v).byteAt p (4 * k + j) = wordByte v j := by
  cases st <;> cases p <;> exact byteAt_putWord_in _ _ _ _ _ hj

/-! ## Through the state -/

variable (s : State)

theorem index_lt (a : Word) : s.index a < 2 ^ s.params.storeIndexBits := storeIndex_lt _ _

theorem memRead_memWrite (p : PortId) (a b v : Word) :
    (s.memWrite p b v).memRead p a = if s.index a = s.index b then v else s.memRead p a :=
  stores_wordAt_putWord _ _ _ _ _

theorem byteAt_memWrite_out (p q : PortId) (b v : Word) (a : Nat) (h : a / 4 ≠ s.index b) :
    (s.memWrite p b v).byteAt q a = s.byteAt q a :=
  stores_byteAt_putWord_out _ _ _ _ _ _ h

/-- A word stored where the next fetch reads is what it reads. -/
@[simp] theorem fetchWord_placeWord (w : Word) : (s.placeWord w).fetchWord = w :=
  (stores_wordAt_putWord _ _ _ _ _).trans (if_pos rfl)

end Sys2Proof.Machine
end

