-- ==== Sys2Proof/Laws/Registers.lean ====
section
/-! SUPPORT. The register file: what a read sees after a write (spec 10_state.md R11, R12). -/

namespace Sys2Proof.Machine

@[simp] theorem regRead_zero (regs : Vector Word 32) : regRead regs 0 = 0 := rfl

@[simp] theorem regWrite_zero (regs : Vector Word 32) (v : Word) : regWrite regs 0 v = regs := rfl

theorem regRead_regWrite (regs : Vector Word 32) (i j : RegIdx) (v : Word) :
    regRead (regWrite regs i v) j = if j = i ∧ i ≠ 0 then v else regRead regs j := by
  unfold regRead regWrite
  by_cases hi : i = 0
  · simp [hi]
  · by_cases hj : j = 0
    · subst hj
      have : ¬ (0 = i) := fun h => hi h.symm
      simp [this]
    · by_cases hij : j = i
      · subst hij; simp [hj]
      · have : i.val ≠ j.val := fun h => hij (Fin.ext h.symm)
        simp [hi, hj, hij, this]

variable (s : State)

@[simp] theorem x_zero : s.x 0 = 0 := rfl

theorem x_writeX (i j : RegIdx) (v : Word) : (s.writeX i v).x j = if j = i ∧ i ≠ 0 then v else s.x j :=
  regRead_regWrite _ _ _ _

/-- The destination of a write, the hardwired register included. -/
@[simp] theorem x_writeX_same (i : RegIdx) (v : Word) : (s.writeX i v).x i = if i = 0 then 0 else v := by
  by_cases h : i = 0
  · subst h; rfl
  · simp [x_writeX, h]

theorem x_writeX_ne {i j : RegIdx} (v : Word) (h : j ≠ i) : (s.writeX i v).x j = s.x j := by
  simp [x_writeX, h]

/-- A write leaves the slot of the hardwired register alone. -/
@[simp] theorem regWrite_slot_zero (regs : Vector Word 32) (i : RegIdx) (v : Word) : (regWrite regs i v)[0] = regs[0] := by
  unfold regWrite
  split
  · rfl
  · rename_i h
    have : i.val ≠ 0 := fun e => h (Fin.ext e)
    simp [this]

end Sys2Proof.Machine
end

