-- ==== Sys2Proof/Laws/Effects.lean ====
section
/-! SUPPORT. What each shared operation of the meanings does, said once: the two shapes of commit, the ALU with a named
operation, the branch condition, and that every outcome has a next state or is the one refusal. -/

namespace Sys2Proof.Machine

variable (s : State)

@[simp] theorem sameBytes_refl : SameBytes s s := fun _ _ => rfl

@[simp] theorem sameRegs_refl : SameRegs s s := fun _ => rfl

/-- The commit of an instruction that writes a register. -/
theorem registerEffect_commit (rd : RegIdx) (v npc : Word) : RegisterEffect rd v npc s ((s.writeX rd v).retire npc) :=
  ⟨⟨rfl, rfl, rfl⟩, by simp, fun _ h => x_writeX_ne s v h, fun _ _ => rfl, ⟨rfl, rfl, rfl, rfl, rfl⟩, rfl⟩

/-- The commit of an instruction that writes none. -/
theorem pcEffect_commit (npc : Word) : PcEffect npc s (s.retire npc) :=
  ⟨⟨rfl, rfl, rfl⟩, fun _ => rfl, fun _ _ => rfl, ⟨rfl, rfl, rfl, rfl, rfl⟩, rfl⟩

theorem regAlu_effect (op : AluOp) (rd rs1 rs2 : RegIdx) :
    ∃ t, regAlu op rd rs1 rs2 s = .next t ∧ RegisterEffect rd (aluCompute op (s.x rs1) (s.x rs2)) s.pc4 s t :=
  ⟨_, rfl, registerEffect_commit _ _ _ _⟩

theorem immAlu_effect (op : AluOp) (rd rs1 : RegIdx) (imm : Word) :
    ∃ t, immAlu op rd rs1 imm s = .next t ∧ RegisterEffect rd (aluCompute op (s.x rs1) imm) s.pc4 s t :=
  ⟨_, rfl, registerEffect_commit _ _ _ _⟩

theorem branchOn_effect (c : BranchCond) (rs1 rs2 : RegIdx) (off : BitVec 13) :
    ∃ t, branchOn c rs1 rs2 off s = .next t ∧ PcEffect (branchNextPc (condHolds c (s.x rs1) (s.x rs2)) off s) s t :=
  ⟨_, rfl, pcEffect_commit _ _⟩

/-- The ALU with the selector of a named operation computes it and is valid. -/
@[simp] theorem alu_funct (a b : Word) (o : AluOp) : alu a b o.funct = (aluCompute o a b, true) := by
  cases o <;> rfl

/-- The BranchUnit with the code of a named condition decides it and is valid. -/
@[simp] theorem branchUnit_code (a b : Word) (c : BranchCond) : branchUnit a b c.code = some (condHolds c a b) := by
  cases c <;> rfl

/-- An unknown opcode: the three values of the parameter, one by one. -/
theorem execUnknownOpcode_cases (w : Word) :
    (s.params.unknownOpcode = .refuse ∧ execUnknownOpcode w s = .refused (.unknownOpcode w)) ∨
    (s.params.unknownOpcode = .nop ∧ execUnknownOpcode w s = .next (s.retire s.pc4)) ∨
    (s.params.unknownOpcode = .havoc ∧ execUnknownOpcode w s =
      .next (((s.writeX (Config.freeReg s.freeCount) (Config.freeWord s.freeCount)).drawn 1).retire s.pc4)) := by
  unfold execUnknownOpcode
  cases s.params.unknownOpcode <;> simp

/-- The default parameters are in range. -/
theorem reset_params_wf : Params.default.wf := by decide

end Sys2Proof.Machine
end

