-- ==== Sys2Proof/Laws/Encoding.lean ====
section
/-! SUPPORT. What the Decoder's fields read from each format (spec 30_encoding.md R81 to R88): one lemma per field and
format, by bits. -/

namespace Sys2Proof

/-- A field of a word, read bit by bit. -/
theorem field_eq {w : Word} {lo n : Nat} {v : BitVec n} (h : ∀ i < n, w.getLsbD (lo + i) = v.getLsbD i) :
    w.extractLsb' lo n = v := by
  apply BitVec.eq_of_getLsbD_eq
  intro i hi
  simp [hi, h i hi]

/-- A register field of a word, read bit by bit. -/
theorem regField_eq {w : Word} {lo : Nat} {r : RegIdx} (h : ∀ i < 5, w.getLsbD (lo + i) = (regBits r).getLsbD i) :
    (w.extractLsb' lo 5).toFin = r := by
  rw [field_eq (v := regBits r) h]
  rfl

/-! ## R format -/

section
variable (f7 : BitVec 7) (rs2 rs1 : RegIdx) (f3 : BitVec 3) (rd : RegIdx) (op : BitVec 7)

@[simp] theorem opcodeOf_formatR : opcodeOf (formatR f7 rs2 rs1 f3 rd op) = op :=
  field_eq fun i hi => by
    simp only [formatR, BitVec.getLsbD_append]
    interval_cases i <;> simp

@[simp] theorem rdOf_formatR : rdOf (formatR f7 rs2 rs1 f3 rd op) = rd :=
  regField_eq fun i hi => by
    simp only [formatR, BitVec.getLsbD_append]
    interval_cases i <;> simp

@[simp] theorem funct3Of_formatR : funct3Of (formatR f7 rs2 rs1 f3 rd op) = f3 :=
  field_eq fun i hi => by
    simp only [formatR, BitVec.getLsbD_append]
    interval_cases i <;> simp

@[simp] theorem rs1Of_formatR : rs1Of (formatR f7 rs2 rs1 f3 rd op) = rs1 :=
  regField_eq fun i hi => by
    simp only [formatR, BitVec.getLsbD_append]
    interval_cases i <;> simp

@[simp] theorem rs2Of_formatR : rs2Of (formatR f7 rs2 rs1 f3 rd op) = rs2 :=
  regField_eq fun i hi => by
    simp only [formatR, BitVec.getLsbD_append]
    interval_cases i <;> simp

@[simp] theorem altOf_formatR : altOf (formatR f7 rs2 rs1 f3 rd op) = f7.extractLsb' 5 1 :=
  field_eq fun i hi => by
    simp only [formatR, BitVec.getLsbD_append]
    interval_cases i
    simp

end

/-! ## I format -/

section
variable (imm : BitVec 12) (rs1 : RegIdx) (f3 : BitVec 3) (rd : RegIdx) (op : BitVec 7)

@[simp] theorem opcodeOf_formatI : opcodeOf (formatI imm rs1 f3 rd op) = op :=
  field_eq fun i hi => by
    simp only [formatI, BitVec.getLsbD_append]
    interval_cases i <;> simp

@[simp] theorem rdOf_formatI : rdOf (formatI imm rs1 f3 rd op) = rd :=
  regField_eq fun i hi => by
    simp only [formatI, BitVec.getLsbD_append]
    interval_cases i <;> simp

@[simp] theorem funct3Of_formatI : funct3Of (formatI imm rs1 f3 rd op) = f3 :=
  field_eq fun i hi => by
    simp only [formatI, BitVec.getLsbD_append]
    interval_cases i <;> simp

@[simp] theorem rs1Of_formatI : rs1Of (formatI imm rs1 f3 rd op) = rs1 :=
  regField_eq fun i hi => by
    simp only [formatI, BitVec.getLsbD_append]
    interval_cases i <;> simp

@[simp] theorem immIOf_formatI : immIOf (formatI imm rs1 f3 rd op) = imm :=
  field_eq fun i hi => by
    simp only [formatI, BitVec.getLsbD_append]
    interval_cases i <;> simp

end

/-! ## Shift format -/

section
variable (f7 : BitVec 7) (sh : BitVec 5) (rs1 : RegIdx) (f3 : BitVec 3) (rd : RegIdx) (op : BitVec 7)

@[simp] theorem opcodeOf_formatShift : opcodeOf (formatShift f7 sh rs1 f3 rd op) = op :=
  field_eq fun i hi => by
    simp only [formatShift, BitVec.getLsbD_append]
    interval_cases i <;> simp

@[simp] theorem rdOf_formatShift : rdOf (formatShift f7 sh rs1 f3 rd op) = rd :=
  regField_eq fun i hi => by
    simp only [formatShift, BitVec.getLsbD_append]
    interval_cases i <;> simp

@[simp] theorem funct3Of_formatShift : funct3Of (formatShift f7 sh rs1 f3 rd op) = f3 :=
  field_eq fun i hi => by
    simp only [formatShift, BitVec.getLsbD_append]
    interval_cases i <;> simp

@[simp] theorem rs1Of_formatShift : rs1Of (formatShift f7 sh rs1 f3 rd op) = rs1 :=
  regField_eq fun i hi => by
    simp only [formatShift, BitVec.getLsbD_append]
    interval_cases i <;> simp

@[simp] theorem shamtOf_formatShift : shamtOf (formatShift f7 sh rs1 f3 rd op) = sh :=
  field_eq fun i hi => by
    simp only [formatShift, BitVec.getLsbD_append]
    interval_cases i <;> simp

@[simp] theorem altOf_formatShift : altOf (formatShift f7 sh rs1 f3 rd op) = f7.extractLsb' 5 1 :=
  field_eq fun i hi => by
    simp only [formatShift, BitVec.getLsbD_append]
    interval_cases i
    simp

end

/-! ## S format -/

section
variable (imm : BitVec 12) (rs2 rs1 : RegIdx) (f3 : BitVec 3) (op : BitVec 7)

@[simp] theorem opcodeOf_formatS : opcodeOf (formatS imm rs2 rs1 f3 op) = op :=
  field_eq fun i hi => by
    simp only [formatS, BitVec.getLsbD_append]
    interval_cases i <;> simp

@[simp] theorem funct3Of_formatS : funct3Of (formatS imm rs2 rs1 f3 op) = f3 :=
  field_eq fun i hi => by
    simp only [formatS, BitVec.getLsbD_append]
    interval_cases i <;> simp

@[simp] theorem rs1Of_formatS : rs1Of (formatS imm rs2 rs1 f3 op) = rs1 :=
  regField_eq fun i hi => by
    simp only [formatS, BitVec.getLsbD_append]
    interval_cases i <;> simp

@[simp] theorem rs2Of_formatS : rs2Of (formatS imm rs2 rs1 f3 op) = rs2 :=
  regField_eq fun i hi => by
    simp only [formatS, BitVec.getLsbD_append]
    interval_cases i <;> simp

@[simp] theorem immSOf_formatS : immSOf (formatS imm rs2 rs1 f3 op) = imm := by
  apply BitVec.eq_of_getLsbD_eq
  intro i hi
  simp only [immSOf, formatS, BitVec.getLsbD_append, BitVec.getLsbD_extractLsb']
  interval_cases i <;> simp

end

/-! ## B format -/

section
variable (imm : BitVec 13) (rs2 rs1 : RegIdx) (f3 : BitVec 3) (op : BitVec 7)

@[simp] theorem opcodeOf_formatB : opcodeOf (formatB imm rs2 rs1 f3 op) = op :=
  field_eq fun i hi => by
    simp only [formatB, BitVec.getLsbD_append]
    interval_cases i <;> simp

@[simp] theorem funct3Of_formatB : funct3Of (formatB imm rs2 rs1 f3 op) = f3 :=
  field_eq fun i hi => by
    simp only [formatB, BitVec.getLsbD_append]
    interval_cases i <;> simp

@[simp] theorem rs1Of_formatB : rs1Of (formatB imm rs2 rs1 f3 op) = rs1 :=
  regField_eq fun i hi => by
    simp only [formatB, BitVec.getLsbD_append]
    interval_cases i <;> simp

@[simp] theorem rs2Of_formatB : rs2Of (formatB imm rs2 rs1 f3 op) = rs2 :=
  regField_eq fun i hi => by
    simp only [formatB, BitVec.getLsbD_append]
    interval_cases i <;> simp

/-- The offset comes back whole, its bit 0 being 0 in a well-formed instruction. -/
theorem immBOf_formatB (h : branchOffsetOk imm = true) : immBOf (formatB imm rs2 rs1 f3 op) = imm := by
  have h0 : imm[0] = false := by simpa [branchOffsetOk] using h
  apply BitVec.eq_of_getLsbD_eq
  intro i hi
  simp only [immBOf, formatB, BitVec.getLsbD_append, BitVec.getLsbD_extractLsb']
  interval_cases i <;> simp [h0]

end

/-! ## U format -/

section
variable (imm : BitVec 20) (rd : RegIdx) (op : BitVec 7)

@[simp] theorem opcodeOf_formatU : opcodeOf (formatU imm rd op) = op :=
  field_eq fun i hi => by
    simp only [formatU, BitVec.getLsbD_append]
    interval_cases i <;> simp

@[simp] theorem rdOf_formatU : rdOf (formatU imm rd op) = rd :=
  regField_eq fun i hi => by
    simp only [formatU, BitVec.getLsbD_append]
    interval_cases i <;> simp

@[simp] theorem immUOf_formatU : immUOf (formatU imm rd op) = imm :=
  field_eq fun i hi => by
    simp only [formatU, BitVec.getLsbD_append]
    interval_cases i <;> simp

end

/-! ## J format -/

section
variable (imm : BitVec 21) (rd : RegIdx) (op : BitVec 7)

@[simp] theorem opcodeOf_formatJ : opcodeOf (formatJ imm rd op) = op :=
  field_eq fun i hi => by
    simp only [formatJ, BitVec.getLsbD_append]
    interval_cases i <;> simp

@[simp] theorem rdOf_formatJ : rdOf (formatJ imm rd op) = rd :=
  regField_eq fun i hi => by
    simp only [formatJ, BitVec.getLsbD_append]
    interval_cases i <;> simp

/-- The offset comes back whole, its bit 0 being 0 in a well-formed instruction. -/
theorem immJOf_formatJ (h : jumpOffsetOk imm = true) : immJOf (formatJ imm rd op) = imm := by
  have h0 : imm[0] = false := by simpa [jumpOffsetOk] using h
  apply BitVec.eq_of_getLsbD_eq
  intro i hi
  simp only [immJOf, formatJ, BitVec.getLsbD_append, BitVec.getLsbD_extractLsb']
  interval_cases i <;> simp [h0]

end

/-! ## Selectors -/

@[simp] theorem ofCode_code (c : OpClass) : OpClass.ofCode c.code = some c := by cases c <;> rfl

@[simp] theorem ofFunct_funct (o : AluOp) : AluOp.ofFunct o.funct = some o := by cases o <;> rfl

@[simp] theorem branch_ofCode_code (c : BranchCond) : BranchCond.ofCode c.code = some c := by cases c <;> rfl

/-- The alt bit of the canonical funct7 is the operation's. -/
@[simp] theorem funct7Of_alt (o : AluOp) : (funct7Of o).extractLsb' 5 1 = o.alt := by cases o <;> rfl

/-- The selector is its two parts (R93). -/
@[simp] theorem alt_append_funct3 (o : AluOp) : (o.alt ++ o.funct3 : BitVec 4) = o.funct := by cases o <;> rfl

/-- A branch's selector is its condition's code below a 0 (R93). -/
@[simp] theorem branch_funct_low (c : BranchCond) : (0#1 ++ c.code : BitVec 4).extractLsb' 0 3 = c.code := by
  cases c <;> rfl

/-! ## Class and selector of the canonical words -/

theorem class_encodeReg (o : AluOp) (rd rs1 rs2 : RegIdx) :
    classOf (encodeReg o rd rs1 rs2) = some .reg ∧ functOf .reg (encodeReg o rd rs1 rs2) = o.funct := by
  simp [classOf, functOf, selectorAlt, encodeReg]

/-- A non-shift operation of class IMM, whose alt bit is 0 whatever the immediate is. -/
theorem class_encodeImm (o : AluOp) (rd rs1 : RegIdx) (imm : BitVec 12) (hs : isShiftFunct3 o.funct3 = false)
    (ha : o.alt = 0) :
    classOf (encodeImm o rd rs1 imm) = some .imm ∧ functOf .imm (encodeImm o rd rs1 imm) = o.funct ∧
      funct3Of (encodeImm o rd rs1 imm) = o.funct3 := by
  have h3 : funct3Of (encodeImm o rd rs1 imm) = o.funct3 := by simp [encodeImm]
  refine ⟨by simp [classOf, encodeImm], ?_, h3⟩
  simp only [functOf, selectorAlt, h3, hs]
  rw [← alt_append_funct3 o, ha]
  rfl

theorem class_encodeShift (o : AluOp) (rd rs1 : RegIdx) (sh : BitVec 5) (hs : isShiftFunct3 o.funct3 = true) :
    classOf (encodeShift o rd rs1 sh) = some .imm ∧ functOf .imm (encodeShift o rd rs1 sh) = o.funct ∧
      funct3Of (encodeShift o rd rs1 sh) = o.funct3 := by
  refine ⟨by simp [classOf, encodeShift], ?_, by simp [encodeShift]⟩
  simp [functOf, selectorAlt, encodeShift, hs]

theorem class_encodeBranch (c : BranchCond) (rs1 rs2 : RegIdx) (off : BitVec 13) :
    classOf (encodeBranch c rs1 rs2 off) = some .branch ∧ funct3Of (encodeBranch c rs1 rs2 off) = c.code := by
  simp [classOf, encodeBranch]

/-! ## The register fields of a record are the raw fields of the word (R98) -/

theorem rdOf_of_record {w : Word} {d : DecodedInstruction} {r : RegIdx} (h : decodeRecord w = some d) (hr : d.rd = some r) :
    rdOf w = r := by
  obtain ⟨c, -, rfl⟩ := Option.map_eq_some_iff.mp h
  simp only [recordOf] at hr
  split at hr
  · exact Option.some.inj hr
  · cases hr

theorem rs1Of_of_record {w : Word} {d : DecodedInstruction} {r : RegIdx} (h : decodeRecord w = some d) (hr : d.rs1 = some r) :
    rs1Of w = r := by
  obtain ⟨c, -, rfl⟩ := Option.map_eq_some_iff.mp h
  simp only [recordOf] at hr
  split at hr
  · exact Option.some.inj hr
  · cases hr

theorem rs2Of_of_record {w : Word} {d : DecodedInstruction} {r : RegIdx} (h : decodeRecord w = some d) (hr : d.rs2 = some r) :
    rs2Of w = r := by
  obtain ⟨c, -, rfl⟩ := Option.map_eq_some_iff.mp h
  simp only [recordOf] at hr
  split at hr
  · exact Option.some.inj hr
  · cases hr

end Sys2Proof
end

