-- ==== Sys2Proof/Laws/PerInstr.lean ====
section
/-! SUPPORT. Statements about every instruction as syntax, one lemma per constructor. -/

namespace Sys2Proof.Laws

/-! `TableRow`: the canonical word of an instruction matches its row of the opcode table under the row's mask (R100). -/

def TableRow.Statement (i : Instr) : Prop := encode i &&& i.row.mask = i.row.matched

theorem TableRow.lui (rd : RegIdx) (imm20 : BitVec 20) : TableRow.Statement (.lui rd imm20) := by
  apply BitVec.eq_of_getLsbD_eq
  intro i hi
  simp only [Instr.row, encode, formatU, OpClass.code, BitVec.getLsbD_and, BitVec.getLsbD_append]
  interval_cases i <;> simp

theorem TableRow.auipc (rd : RegIdx) (imm20 : BitVec 20) : TableRow.Statement (.auipc rd imm20) := by
  apply BitVec.eq_of_getLsbD_eq
  intro i hi
  simp only [Instr.row, encode, formatU, OpClass.code, BitVec.getLsbD_and, BitVec.getLsbD_append]
  interval_cases i <;> simp

theorem TableRow.jal (rd : RegIdx) (off : BitVec 21) : TableRow.Statement (.jal rd off) := by
  apply BitVec.eq_of_getLsbD_eq
  intro i hi
  simp only [Instr.row, encode, formatJ, OpClass.code, BitVec.getLsbD_and, BitVec.getLsbD_append]
  interval_cases i <;> simp

theorem TableRow.jalr (rd : RegIdx) (rs1 : RegIdx) (imm : BitVec 12) : TableRow.Statement (.jalr rd rs1 imm) := by
  apply BitVec.eq_of_getLsbD_eq
  intro i hi
  simp only [Instr.row, encode, formatI, OpClass.code, BitVec.getLsbD_and, BitVec.getLsbD_append]
  interval_cases i <;> simp

theorem TableRow.beq (rs1 : RegIdx) (rs2 : RegIdx) (off : BitVec 13) : TableRow.Statement (.beq rs1 rs2 off) := by
  apply BitVec.eq_of_getLsbD_eq
  intro i hi
  simp only [Instr.row, encode, encodeBranch, formatB, BranchCond.code, OpClass.code, BitVec.getLsbD_and, BitVec.getLsbD_append]
  interval_cases i <;> simp

theorem TableRow.bne (rs1 : RegIdx) (rs2 : RegIdx) (off : BitVec 13) : TableRow.Statement (.bne rs1 rs2 off) := by
  apply BitVec.eq_of_getLsbD_eq
  intro i hi
  simp only [Instr.row, encode, encodeBranch, formatB, BranchCond.code, OpClass.code, BitVec.getLsbD_and, BitVec.getLsbD_append]
  interval_cases i <;> simp

theorem TableRow.blt (rs1 : RegIdx) (rs2 : RegIdx) (off : BitVec 13) : TableRow.Statement (.blt rs1 rs2 off) := by
  apply BitVec.eq_of_getLsbD_eq
  intro i hi
  simp only [Instr.row, encode, encodeBranch, formatB, BranchCond.code, OpClass.code, BitVec.getLsbD_and, BitVec.getLsbD_append]
  interval_cases i <;> simp

theorem TableRow.bge (rs1 : RegIdx) (rs2 : RegIdx) (off : BitVec 13) : TableRow.Statement (.bge rs1 rs2 off) := by
  apply BitVec.eq_of_getLsbD_eq
  intro i hi
  simp only [Instr.row, encode, encodeBranch, formatB, BranchCond.code, OpClass.code, BitVec.getLsbD_and, BitVec.getLsbD_append]
  interval_cases i <;> simp

theorem TableRow.bltu (rs1 : RegIdx) (rs2 : RegIdx) (off : BitVec 13) : TableRow.Statement (.bltu rs1 rs2 off) := by
  apply BitVec.eq_of_getLsbD_eq
  intro i hi
  simp only [Instr.row, encode, encodeBranch, formatB, BranchCond.code, OpClass.code, BitVec.getLsbD_and, BitVec.getLsbD_append]
  interval_cases i <;> simp

theorem TableRow.bgeu (rs1 : RegIdx) (rs2 : RegIdx) (off : BitVec 13) : TableRow.Statement (.bgeu rs1 rs2 off) := by
  apply BitVec.eq_of_getLsbD_eq
  intro i hi
  simp only [Instr.row, encode, encodeBranch, formatB, BranchCond.code, OpClass.code, BitVec.getLsbD_and, BitVec.getLsbD_append]
  interval_cases i <;> simp

theorem TableRow.lw (rd : RegIdx) (rs1 : RegIdx) (imm : BitVec 12) : TableRow.Statement (.lw rd rs1 imm) := by
  apply BitVec.eq_of_getLsbD_eq
  intro i hi
  simp only [Instr.row, encode, formatI, OpClass.code, wordWidthCode, BitVec.getLsbD_and, BitVec.getLsbD_append]
  interval_cases i <;> simp

theorem TableRow.sw (rs1 : RegIdx) (rs2 : RegIdx) (imm : BitVec 12) : TableRow.Statement (.sw rs1 rs2 imm) := by
  apply BitVec.eq_of_getLsbD_eq
  intro i hi
  simp only [Instr.row, encode, formatS, OpClass.code, wordWidthCode, BitVec.getLsbD_and, BitVec.getLsbD_append]
  interval_cases i <;> simp

theorem TableRow.addi (rd : RegIdx) (rs1 : RegIdx) (imm : BitVec 12) : TableRow.Statement (.addi rd rs1 imm) := by
  apply BitVec.eq_of_getLsbD_eq
  intro i hi
  simp only [Instr.row, encode, encodeImm, formatI, AluOp.funct, AluOp.funct3, OpClass.code, BitVec.getLsbD_and, BitVec.getLsbD_append]
  interval_cases i <;> simp

theorem TableRow.slti (rd : RegIdx) (rs1 : RegIdx) (imm : BitVec 12) : TableRow.Statement (.slti rd rs1 imm) := by
  apply BitVec.eq_of_getLsbD_eq
  intro i hi
  simp only [Instr.row, encode, encodeImm, formatI, AluOp.funct, AluOp.funct3, OpClass.code, BitVec.getLsbD_and, BitVec.getLsbD_append]
  interval_cases i <;> simp

theorem TableRow.sltiu (rd : RegIdx) (rs1 : RegIdx) (imm : BitVec 12) : TableRow.Statement (.sltiu rd rs1 imm) := by
  apply BitVec.eq_of_getLsbD_eq
  intro i hi
  simp only [Instr.row, encode, encodeImm, formatI, AluOp.funct, AluOp.funct3, OpClass.code, BitVec.getLsbD_and, BitVec.getLsbD_append]
  interval_cases i <;> simp

theorem TableRow.xori (rd : RegIdx) (rs1 : RegIdx) (imm : BitVec 12) : TableRow.Statement (.xori rd rs1 imm) := by
  apply BitVec.eq_of_getLsbD_eq
  intro i hi
  simp only [Instr.row, encode, encodeImm, formatI, AluOp.funct, AluOp.funct3, OpClass.code, BitVec.getLsbD_and, BitVec.getLsbD_append]
  interval_cases i <;> simp

theorem TableRow.ori (rd : RegIdx) (rs1 : RegIdx) (imm : BitVec 12) : TableRow.Statement (.ori rd rs1 imm) := by
  apply BitVec.eq_of_getLsbD_eq
  intro i hi
  simp only [Instr.row, encode, encodeImm, formatI, AluOp.funct, AluOp.funct3, OpClass.code, BitVec.getLsbD_and, BitVec.getLsbD_append]
  interval_cases i <;> simp

theorem TableRow.andi (rd : RegIdx) (rs1 : RegIdx) (imm : BitVec 12) : TableRow.Statement (.andi rd rs1 imm) := by
  apply BitVec.eq_of_getLsbD_eq
  intro i hi
  simp only [Instr.row, encode, encodeImm, formatI, AluOp.funct, AluOp.funct3, OpClass.code, BitVec.getLsbD_and, BitVec.getLsbD_append]
  interval_cases i <;> simp

theorem TableRow.slli (rd : RegIdx) (rs1 : RegIdx) (sh : BitVec 5) : TableRow.Statement (.slli rd rs1 sh) := by
  apply BitVec.eq_of_getLsbD_eq
  intro i hi
  simp only [Instr.row, encode, encodeShift, formatShift, AluOp.funct, AluOp.funct3, AluOp.alt, funct7Of, OpClass.code, BitVec.getLsbD_and, BitVec.getLsbD_append]
  interval_cases i <;> simp

theorem TableRow.srli (rd : RegIdx) (rs1 : RegIdx) (sh : BitVec 5) : TableRow.Statement (.srli rd rs1 sh) := by
  apply BitVec.eq_of_getLsbD_eq
  intro i hi
  simp only [Instr.row, encode, encodeShift, formatShift, AluOp.funct, AluOp.funct3, AluOp.alt, funct7Of, OpClass.code, BitVec.getLsbD_and, BitVec.getLsbD_append]
  interval_cases i <;> simp

theorem TableRow.srai (rd : RegIdx) (rs1 : RegIdx) (sh : BitVec 5) : TableRow.Statement (.srai rd rs1 sh) := by
  apply BitVec.eq_of_getLsbD_eq
  intro i hi
  simp only [Instr.row, encode, encodeShift, formatShift, AluOp.funct, AluOp.funct3, AluOp.alt, funct7Of, OpClass.code, BitVec.getLsbD_and, BitVec.getLsbD_append]
  interval_cases i <;> simp

theorem TableRow.add (rd : RegIdx) (rs1 : RegIdx) (rs2 : RegIdx) : TableRow.Statement (.add rd rs1 rs2) := by
  apply BitVec.eq_of_getLsbD_eq
  intro i hi
  simp only [Instr.row, encode, encodeReg, formatR, AluOp.funct, AluOp.funct3, AluOp.alt, funct7Of, OpClass.code, BitVec.getLsbD_and, BitVec.getLsbD_append]
  interval_cases i <;> simp

theorem TableRow.sub (rd : RegIdx) (rs1 : RegIdx) (rs2 : RegIdx) : TableRow.Statement (.sub rd rs1 rs2) := by
  apply BitVec.eq_of_getLsbD_eq
  intro i hi
  simp only [Instr.row, encode, encodeReg, formatR, AluOp.funct, AluOp.funct3, AluOp.alt, funct7Of, OpClass.code, BitVec.getLsbD_and, BitVec.getLsbD_append]
  interval_cases i <;> simp

theorem TableRow.sll (rd : RegIdx) (rs1 : RegIdx) (rs2 : RegIdx) : TableRow.Statement (.sll rd rs1 rs2) := by
  apply BitVec.eq_of_getLsbD_eq
  intro i hi
  simp only [Instr.row, encode, encodeReg, formatR, AluOp.funct, AluOp.funct3, AluOp.alt, funct7Of, OpClass.code, BitVec.getLsbD_and, BitVec.getLsbD_append]
  interval_cases i <;> simp

theorem TableRow.slt (rd : RegIdx) (rs1 : RegIdx) (rs2 : RegIdx) : TableRow.Statement (.slt rd rs1 rs2) := by
  apply BitVec.eq_of_getLsbD_eq
  intro i hi
  simp only [Instr.row, encode, encodeReg, formatR, AluOp.funct, AluOp.funct3, AluOp.alt, funct7Of, OpClass.code, BitVec.getLsbD_and, BitVec.getLsbD_append]
  interval_cases i <;> simp

theorem TableRow.sltu (rd : RegIdx) (rs1 : RegIdx) (rs2 : RegIdx) : TableRow.Statement (.sltu rd rs1 rs2) := by
  apply BitVec.eq_of_getLsbD_eq
  intro i hi
  simp only [Instr.row, encode, encodeReg, formatR, AluOp.funct, AluOp.funct3, AluOp.alt, funct7Of, OpClass.code, BitVec.getLsbD_and, BitVec.getLsbD_append]
  interval_cases i <;> simp

theorem TableRow.xor (rd : RegIdx) (rs1 : RegIdx) (rs2 : RegIdx) : TableRow.Statement (.xor rd rs1 rs2) := by
  apply BitVec.eq_of_getLsbD_eq
  intro i hi
  simp only [Instr.row, encode, encodeReg, formatR, AluOp.funct, AluOp.funct3, AluOp.alt, funct7Of, OpClass.code, BitVec.getLsbD_and, BitVec.getLsbD_append]
  interval_cases i <;> simp

theorem TableRow.srl (rd : RegIdx) (rs1 : RegIdx) (rs2 : RegIdx) : TableRow.Statement (.srl rd rs1 rs2) := by
  apply BitVec.eq_of_getLsbD_eq
  intro i hi
  simp only [Instr.row, encode, encodeReg, formatR, AluOp.funct, AluOp.funct3, AluOp.alt, funct7Of, OpClass.code, BitVec.getLsbD_and, BitVec.getLsbD_append]
  interval_cases i <;> simp

theorem TableRow.sra (rd : RegIdx) (rs1 : RegIdx) (rs2 : RegIdx) : TableRow.Statement (.sra rd rs1 rs2) := by
  apply BitVec.eq_of_getLsbD_eq
  intro i hi
  simp only [Instr.row, encode, encodeReg, formatR, AluOp.funct, AluOp.funct3, AluOp.alt, funct7Of, OpClass.code, BitVec.getLsbD_and, BitVec.getLsbD_append]
  interval_cases i <;> simp

theorem TableRow.or (rd : RegIdx) (rs1 : RegIdx) (rs2 : RegIdx) : TableRow.Statement (.or rd rs1 rs2) := by
  apply BitVec.eq_of_getLsbD_eq
  intro i hi
  simp only [Instr.row, encode, encodeReg, formatR, AluOp.funct, AluOp.funct3, AluOp.alt, funct7Of, OpClass.code, BitVec.getLsbD_and, BitVec.getLsbD_append]
  interval_cases i <;> simp

theorem TableRow.and (rd : RegIdx) (rs1 : RegIdx) (rs2 : RegIdx) : TableRow.Statement (.and rd rs1 rs2) := by
  apply BitVec.eq_of_getLsbD_eq
  intro i hi
  simp only [Instr.row, encode, encodeReg, formatR, AluOp.funct, AluOp.funct3, AluOp.alt, funct7Of, OpClass.code, BitVec.getLsbD_and, BitVec.getLsbD_append]
  interval_cases i <;> simp

end Sys2Proof.Laws
end

