-- ==== Sys2Proof/Laws/Sequencer.lean ====
section
/-! SUPPORT. What a bus tick and a tick of the block do, one lemma for each situation of the FSM, and that a commit of the
datapath is the effect of the word (spec 50_sequencer.md R202 to R210). -/

namespace Sys2Proof.Machine

/-! ## The bus -/

/-- The stores' canonical form through the arbiter (R52). -/
theorem arbiterStore_wf {n bits : Nat} {store : Memory} (req : Fin n → BusRequest) (regs : Fin n → PortRegs)
    (h : store.wf) : (arbiterStore bits store req regs).wf := by
  unfold arbiterStore
  split
  · exact putWord_wf _ _ h
  · exact h

theorem arbiterStore_within {n bits : Nat} {store : Memory} (req : Fin n → BusRequest) (regs : Fin n → PortRegs)
    (h : store.within bits) : (arbiterStore bits store req regs).within bits := by
  unfold arbiterStore
  split
  · exact putWord_within _ h (storeIndex_lt _ _)
  · exact h

/-- Loading an image keeps every store canonical and within its size (R255). -/
theorem loadImage_wf {bits : Nat} (image : List Word) (address : Word) (st : Stores) (h : st.wf bits) :
    (Stores.loadImage bits address image st).wf bits := by
  induction image generalizing address st with
  | nil => exact h
  | cons w ws ih => exact ih _ _ (stores_putWord_wf _ _ h (storeIndex_lt _ _))

/-- Nothing is listed at reset, and an empty listing is canonical. -/
theorem reset_stores_wf (bits : Nat) : State.reset.stores.wf bits := ⟨List.Pairwise.nil, nofun⟩

/-- A port reads and writes with no change but to its own store: the bus side of a tick, when the instruction port does not
write and at most one port requests, as with this core (R55). -/
theorem busTick_eq (s : State) (i d : BusRequest) (hi : i.writeEnable = false)
    (hx : i.pending s.iPort = false ∨ d.pending s.dPort = false) :
    s.busTick i d = { s with
      iPort := if i.pending s.iPort then ⟨true, s.memRead .instr i.address⟩ else ⟨false, s.iPort.rdata⟩
      dPort := if d.pending s.dPort then ⟨true, s.memRead .data d.address⟩ else ⟨false, s.dPort.rdata⟩
      stores := if d.commits s.dPort then s.stores.putWord .data (s.index d.address) d.writeData else s.stores } := by
  have fin1 : List.finRange 1 = [0] := by decide
  have fin2 : List.finRange 2 = [0, 1] := by decide
  have hic : i.commits s.iPort = false := by simp [BusRequest.commits, hi]
  unfold State.busTick
  cases hst : s.stores with
  | unified m =>
    simp only [arbiterPort, arbiterStore, grant, fin2, List.find?, Matrix.cons_val_zero, Matrix.cons_val_one, hic]
    rcases h1 : i.pending s.iPort with _ | _ <;> rcases h2 : d.pending s.dPort with _ | _ <;>
      rcases h3 : d.commits s.dPort with _ | _ <;>
      simp_all [State.memRead, Stores.wordAt, Stores.reach, Stores.storeId, Stores.putWord, State.index]
  | split im dm =>
    simp only [arbiterPort, arbiterStore, grant, fin1, List.find?, Matrix.cons_val_fin_one, hic]
    rcases h1 : i.pending s.iPort with _ | _ <;> rcases h2 : d.pending s.dPort with _ | _ <;>
      rcases h3 : d.commits s.dPort with _ | _ <;>
      simp_all [State.memRead, Stores.wordAt, Stores.reach, Stores.storeId, Stores.putWord, State.index]

/-- The bus side of the block's own tick: the core's two requests meet the conditions of `busTick_eq` (R207, R208). -/
theorem busTick_core (s : State) : s.busTick s.iRequest s.dRequest = { s with
    iPort := if s.iRequest.pending s.iPort then ⟨true, s.memRead .instr s.iRequest.address⟩ else ⟨false, s.iPort.rdata⟩
    dPort := if s.dRequest.pending s.dPort then ⟨true, s.memRead .data s.dRequest.address⟩ else ⟨false, s.dPort.rdata⟩
    stores := if s.dRequest.commits s.dPort then
        s.stores.putWord .data (s.index s.dRequest.address) s.dRequest.writeData else s.stores } := by
  apply busTick_eq
  · unfold State.iRequest; cases s.fsm <;> rfl
  · unfold State.iRequest State.dRequest
    cases s.fsm <;> simp [BusRequest.pending, BusRequest.idle]

/-! ## One tick of the block, by the FSM state and the acknowledge -/

/-- The state with both acknowledges down: what an idle cycle leaves of the arbiter's registers (R50, R51). -/
def State.quiet (s : State) : State := { s with iPort := ⟨false, s.iPort.rdata⟩, dPort := ⟨false, s.dPort.rdata⟩ }

theorem tick_eq (s : State) : tick false s = match coreTick s.iPort.response s.dPort.response s with
    | .next t => .next { t with
        iPort := if s.iRequest.pending s.iPort then ⟨true, s.memRead .instr s.iRequest.address⟩ else ⟨false, s.iPort.rdata⟩
        dPort := if s.dRequest.pending s.dPort then ⟨true, s.memRead .data s.dRequest.address⟩ else ⟨false, s.dPort.rdata⟩
        stores := if s.dRequest.commits s.dPort then
            s.stores.putWord .data (s.index s.dRequest.address) s.dRequest.writeData else s.stores }
    | .fault r => .fault r
    | .refused r => .refused r := by
  unfold tick
  rw [if_neg (by decide)]
  cases coreTick s.iPort.response s.dPort.response s <;> simp only [busTick_core]

theorem tick_fetch_wait (s : State) (hf : s.fsm = .fetch) (ha : s.iPort.ack = false) :
    tick false s =
      .next { s with retired := false, iPort := ⟨true, s.fetchWord⟩, dPort := ⟨false, s.dPort.rdata⟩ } := by
  rw [tick_eq]
  simp [coreTick, hf, PortRegs.response, ha, State.iRequest, State.dRequest, BusRequest.pending, BusRequest.commits,
    BusRequest.idle, State.fetchWord]

theorem tick_fetch_latch (s : State) (hf : s.fsm = .fetch) (ha : s.iPort.ack = true) :
    tick false s = .next { s.quiet with retired := false, fsm := .execute, inst := s.iPort.rdata } := by
  rw [tick_eq]
  simp [coreTick, hf, PortRegs.response, ha, State.iRequest, State.dRequest, BusRequest.pending, BusRequest.commits,
    BusRequest.idle, State.quiet]

theorem tick_execute (s : State) (hf : s.fsm = .execute) :
    tick false s = match decodeRecord s.inst with
      | none => execUnknownOpcode s.inst s.quiet
      | some r =>
        if r.memOpEn then .next { s.quiet with fsm := .write, retired := false }
        else .next (commitRecord r (writeBack r s.quiet) s.quiet) := by
  rw [tick_eq]
  simp only [coreTick, hf, State.iRequest, State.dRequest, BusRequest.pending, BusRequest.commits, BusRequest.idle]
  cases hd : decodeRecord s.inst with
  | none =>
    simp only [execUnknownOpcode, State.quiet]
    cases s.params.unknownOpcode <;> simp [State.retire, State.drawn, State.writeX, State.pc4]
  | some r =>
    cases hm : r.memOpEn
    · simp only [show writeBack r s.quiet = writeBack r s from rfl]
      generalize writeBack r s = wb
      cases hrd : r.rd <;> cases wb <;> simp only [commitRecord, hrd, hm] <;> rfl
    · simp [State.quiet, hm]

theorem tick_write_wait (s : State) (hf : s.fsm = .write) (r : DecodedInstruction) (hr : decodeRecord s.inst = some r)
    (ha : s.dPort.ack = false) :
    tick false s = .next { s with
      retired := false, iPort := ⟨false, s.iPort.rdata⟩, dPort := ⟨true, s.memRead .data (aluOut r s).1⟩ } := by
  rw [tick_eq]
  simp [coreTick, hf, hr, PortRegs.response, ha, State.iRequest, State.dRequest, BusRequest.pending, BusRequest.commits,
    BusRequest.idle]

theorem tick_write_commit (s : State) (hf : s.fsm = .write) (r : DecodedInstruction) (hr : decodeRecord s.inst = some r)
    (ha : s.dPort.ack = true) :
    tick false s = .next { commitRecord r (if r.memOpStore then none else some s.dPort.rdata) s with
      iPort := ⟨false, s.iPort.rdata⟩
      dPort := ⟨false, s.dPort.rdata⟩
      stores := if r.memOpStore then s.stores.putWord .data (s.index (aluOut r s).1) s.rv2 else s.stores } := by
  rw [tick_eq]
  simp [coreTick, hf, hr, PortRegs.response, ha, State.iRequest, State.dRequest, BusRequest.pending, BusRequest.commits,
    BusRequest.idle]

theorem tick_write_unknown (s : State) (hf : s.fsm = .write) (hr : decodeRecord s.inst = none) :
    tick false s = execUnknownOpcode s.inst s.quiet := by
  rw [tick_eq]
  simp only [coreTick, hf, hr, State.iRequest, State.dRequest, BusRequest.pending, BusRequest.commits, BusRequest.idle]
  simp only [execUnknownOpcode, State.quiet]
  cases s.params.unknownOpcode <;> simp [State.retire, State.drawn, State.writeX, State.pc4]

/-- A commit goes to FETCH with the pulse up and touches neither parameters, latched word nor stores. -/
theorem commitRecord_frame (d : DecodedInstruction) (wb : Option Word) (s : State) :
    (commitRecord d wb s).fsm = .fetch ∧ (commitRecord d wb s).retired = true ∧
      (commitRecord d wb s).params = s.params ∧ (commitRecord d wb s).inst = s.inst ∧
      (commitRecord d wb s).stores = s.stores := by
  cases h : d.rd <;> cases wb <;> simp [commitRecord, h]

/-! ## The datapath's commit is the effect of the word -/

/-- Class IMM: a selector that names an operation never names SUB, and names a shift exactly for the two shift values of
funct3 (R93). -/
theorem functOf_imm (w : Word) (o : AluOp) (h : AluOp.ofFunct (functOf .imm w) = some o) :
    o ≠ .sub ∧ isShiftFunct3 (funct3Of w) = (o = .sll ∨ o = .srl ∨ o = .sra : Bool) := by
  simp only [functOf, selectorAlt] at h
  generalize altOf w = a at h
  generalize funct3Of w = f at h ⊢
  revert h
  revert f a
  cases o <;> decide

/-- A word of a class, no load and no store, with the record latched: what the datapath commits from EXECUTE is the word's
instruction-level effect (R203, R215). -/
theorem commitRecord_eq_runWord (s : State) (r : DecodedInstruction) (hr : decodeRecord s.inst = some r)
    (hm : r.memOpEn = false) : .next (commitRecord r (writeBack r s) s) = runWord s.inst s := by
  unfold decodeRecord at hr
  cases hc : classOf s.inst with
  | none => simp [hc] at hr
  | some c =>
    simp only [hc, Option.map_some, Option.some.injEq] at hr
    subst hr
    cases c <;> simp [recordOf] at hm
    case lui =>
      simp [runWord, decode, hc, exec, commitRecord, writeBack, recordOf, OpClass.itype, OpClass.rs1En, OpClass.rdEn,
        functOf, immOf, freeDraws, aluOut, operandA, operandB, nextPc, execLui, aluCompute, -BitVec.zero_eq]
    case auipc =>
      simp [runWord, decode, hc, exec, commitRecord, writeBack, recordOf, OpClass.itype, OpClass.rdEn, functOf, immOf,
        freeDraws, aluOut, operandA, operandB, nextPc, execAuipc, pcUpper, aluCompute, -BitVec.zero_eq]
    case jal =>
      simp [runWord, decode, hc, exec, commitRecord, writeBack, recordOf, OpClass.itype, OpClass.rdEn, functOf, immOf,
        freeDraws, aluOut, operandA, operandB, nextPc, execJal, jalTarget, aluCompute, -BitVec.zero_eq]
    case jalr =>
      simp [runWord, decode, hc, exec, commitRecord, writeBack, recordOf, OpClass.itype, OpClass.rs1En, OpClass.rdEn,
        functOf, immOf, freeDraws, aluOut, operandA, operandB, nextPc, execJalr, jalrTarget, aluCompute, State.rv1,
        -BitVec.zero_eq]
    case branch =>
      simp only [runWord, decode, hc, decodeBranch]
      have hx : (0#1 ++ funct3Of s.inst : BitVec 4).extractLsb' 0 3 = funct3Of s.inst := by
        generalize funct3Of s.inst = f
        revert f
        decide
      cases ho : BranchCond.ofCode (funct3Of s.inst) with
      | none =>
        simp [ho, hx, commitRecord, writeBack, recordOf, OpClass.itype, OpClass.rdEn, functOf, selectorAlt, immOf,
          freeDraws, branchOut, branchUnit, nextPc, execReservedBranch, branchNextPc, branchTarget, -BitVec.zero_eq]
      | some c =>
        cases c <;>
        simp [ho, hx, exec, commitRecord, writeBack, recordOf, OpClass.itype, OpClass.rdEn, functOf, selectorAlt, immOf,
          freeDraws, branchOut, branchUnit, nextPc, branchNextPc, branchTarget, execBeq, execBne, execBlt, execBge,
          execBltu, execBgeu, branchOn, State.rv1, State.rv2, -BitVec.zero_eq]
    case imm =>
      simp only [runWord, decode, hc, decodeImm]
      cases ho : AluOp.ofFunct (functOf .imm s.inst) with
      | none =>
        simp [ho, commitRecord, writeBack, recordOf, OpClass.itype, OpClass.rdEn, freeDraws, aluOut, alu, nextPc,
          execReservedAlu, -BitVec.zero_eq]
      | some c =>
        obtain ⟨h1, h2⟩ := functOf_imm _ _ ho
        cases c <;> simp at h1 h2 <;>
        simp [h2, ho, exec, commitRecord, writeBack, recordOf, OpClass.itype, OpClass.rs1En, OpClass.rdEn, immOf,
          freeDraws, aluOut, alu, operandA, operandB, nextPc, execAddi, execSlti, execSltiu, execXori, execOri, execAndi,
          execSlli, execSrli, execSrai, immAlu, State.rv1, -BitVec.zero_eq]
    case reg =>
      simp only [runWord, decode, hc, decodeReg]
      cases ho : AluOp.ofFunct (functOf .reg s.inst) with
      | none =>
        simp [ho, commitRecord, writeBack, recordOf, OpClass.itype, OpClass.rdEn, freeDraws, aluOut, alu, nextPc,
          execReservedAlu, -BitVec.zero_eq]
      | some c =>
        cases c <;>
        simp [ho, exec, commitRecord, writeBack, recordOf, OpClass.itype, OpClass.rs1En, OpClass.rdEn, immOf, freeDraws,
          aluOut, alu, operandA, operandB, nextPc, execAdd, execSub, execSll, execSlt, execSltu, execXor, execSrl,
          execSra, execOr, execAnd, regAlu, State.rv1, State.rv2, -BitVec.zero_eq]

end Sys2Proof.Machine
end

