-- ==== Sys2Proof/Tests/Slice0.lean ====
section
/-! SUPPORT. The package's own tests. Expected results are the spec's: 95_test_vectors.md (by section), or a hand
calculation from the rule named. Then the witnesses: for every statement of Obligations.lean with hypotheses, a concrete
state and operands that meet them. -/

namespace Sys2Proof.Tests

open Sys2Proof Sys2Proof.Machine

/-! ## Helpers -/

/-- The reset state with another pc and some registers set. -/
def start (pc : Word) (regs : List (RegIdx × Word)) : State :=
  regs.foldl (fun s p => s.writeX p.1 p.2) { State.reset with pc := pc }

/-- A register and the pc after an outcome with a next state. -/
def seen (o : Outcome) (r : RegIdx) : Option (Word × Word) :=
  match o with
  | .next t => some (t.x r, t.pc)
  | .fault _ => none
  | .refused _ => none

/-- One step on a fetched word: register `r` and the pc after it. -/
def run (w : Word) (pc : Word) (regs : List (RegIdx × Word)) (r : RegIdx) : Option (Word × Word) :=
  seen (step ((start pc regs).withFetchWord 32 w.toNat)) r

/-- A register-register word of 95 section 2.1 (`x1` = a, `x2` = b, result in `x3`), the pc going from 0x1000 to 0x1004. -/
def runReg (w a b : Word) : Option Word := (run w 0x1000 [(1, a), (2, b)] 3).bind fun p => if p.2 = 0x1004 then some p.1 else none

/-- A register-immediate word of 95 section 2.2 (`x6` the source, `x5` the destination). -/
def runImm (w a : Word) : Option Word := (run w 0x1000 [(6, a)] 5).bind fun p => if p.2 = 0x1004 then some p.1 else none

/-- A branch word of 95 section 2.5 (`x1` = a, `x2` = b, offset 8) at 0x1000: taken or not. -/
def runBranch (w a b : Word) : Option Bool :=
  (run w 0x1000 [(1, a), (2, b)] 1).bind fun p =>
    if p = (a, 0x1008) then some true else if p = (a, 0x1004) then some false else none

/-- The word a port reaches at an address, after an outcome with a next state. -/
def wordAfter (o : Outcome) (p : PortId) (a : Word) : Option Word :=
  match o with
  | .next t => some (t.memRead p a)
  | .fault _ => none
  | .refused _ => none

/-! ## WellFormed: each check refuses a term (R85, R87: bit 0 of the offset) -/

theorem test_illformed_jal : (Instr.jal 1 3).wellFormed = false := by decide
theorem test_illformed_beq : (Instr.beq 1 2 1).wellFormed = false := by decide
theorem test_illformed_bne : (Instr.bne 1 2 (-1)).wellFormed = false := by decide
theorem test_illformed_blt : (Instr.blt 1 2 4095).wellFormed = false := by decide
theorem test_illformed_bge : (Instr.bge 1 2 5).wellFormed = false := by decide
theorem test_illformed_bltu : (Instr.bltu 1 2 7).wellFormed = false := by decide
theorem test_illformed_bgeu : (Instr.bgeu 1 2 9).wellFormed = false := by decide

theorem test_wellformed_extremes :
    (Instr.jal 1 1048574).wellFormed = true ∧ (Instr.jal 1 (-1048576)).wellFormed = true ∧
    (Instr.beq 1 2 4094).wellFormed = true ∧ (Instr.beq 1 2 (-4096)).wellFormed = true ∧
    (Instr.jalr 1 2 3).wellFormed = true := by decide

/-! ## Decode: words written bit by bit from the formats (R82) and the numbers (R91, R94, R95), one family each -/

theorem test_decode_bits_reg :
    decodeInstr (0b0100000#7 ++ 0b00010#5 ++ 0b00001#5 ++ 0b000#3 ++ 0b00011#5 ++ 0b0110011#7) = some (.sub 3 1 2) := by decide
theorem test_decode_bits_imm :
    decodeInstr (0b111111111110#12 ++ 0b00110#5 ++ 0b100#3 ++ 0b00101#5 ++ 0b0010011#7) = some (.xori 5 6 (-2)) := by decide
theorem test_decode_bits_shift :
    decodeInstr (0b0100000#7 ++ 0b10001#5 ++ 0b00110#5 ++ 0b101#3 ++ 0b00101#5 ++ 0b0010011#7) = some (.srai 5 6 17) := by
  decide
theorem test_decode_bits_upper :
    decodeInstr (0b10000000000000000001#20 ++ 0b11111#5 ++ 0b0010111#7) = some (.auipc 31 0x80001) := by decide
/-- imm[20|10:1|11|19:12]: only imm[11] and imm[12] set. -/
theorem test_decode_bits_jal :
    decodeInstr (0b0#1 ++ 0b0000000000#10 ++ 0b1#1 ++ 0b00000001#8 ++ 0b00001#5 ++ 0b1101111#7) = some (.jal 1 0x1800) := by
  decide
theorem test_decode_bits_jalr :
    decodeInstr (0b000000000011#12 ++ 0b00101#5 ++ 0b000#3 ++ 0b00001#5 ++ 0b1100111#7) = some (.jalr 1 5 3) := by decide
/-- imm[12|10:5] and imm[4:1|11]: only imm[11] and imm[5] set. -/
theorem test_decode_bits_branch :
    decodeInstr (0b0#1 ++ 0b000001#6 ++ 0b00010#5 ++ 0b00001#5 ++ 0b110#3 ++ 0b0000#4 ++ 0b1#1 ++ 0b1100011#7) =
      some (.bltu 1 2 0x820) := by decide
theorem test_decode_bits_load :
    decodeInstr (0b111111110000#12 ++ 0b00010#5 ++ 0b010#3 ++ 0b00011#5 ++ 0b0000011#7) = some (.lw 3 2 (-16)) := by decide
theorem test_decode_bits_store :
    decodeInstr (0b1111111#7 ++ 0b00001#5 ++ 0b00011#5 ++ 0b010#3 ++ 0b11000#5 ++ 0b0100011#7) = some (.sw 3 1 (-8)) := by
  decide

/-! ## Decode: every constructor by a word the spec prints (95 sections 2.1 to 2.7) -/

theorem test_decode_reg_family :
    decodeInstr 0x002081B3 = some (.add 3 1 2) ∧ decodeInstr 0x402081B3 = some (.sub 3 1 2) ∧
    decodeInstr 0x002091B3 = some (.sll 3 1 2) ∧ decodeInstr 0x0020A1B3 = some (.slt 3 1 2) ∧
    decodeInstr 0x0020B1B3 = some (.sltu 3 1 2) ∧ decodeInstr 0x0020C1B3 = some (.xor 3 1 2) ∧
    decodeInstr 0x0020D1B3 = some (.srl 3 1 2) ∧ decodeInstr 0x41DF5FB3 = some (.sra 31 30 29) ∧
    decodeInstr 0x0020E1B3 = some (.or 3 1 2) ∧ decodeInstr 0x0020F1B3 = some (.and 3 1 2) := by decide

theorem test_decode_imm_family :
    decodeInstr 0x40030293 = some (.addi 5 6 1024) ∧ decodeInstr 0xFFF12093 = some (.slti 1 2 (-1)) ∧
    decodeInstr 0x00133293 = some (.sltiu 5 6 1) ∧ decodeInstr 0xFFF34293 = some (.xori 5 6 (-1)) ∧
    decodeInstr 0x0F036293 = some (.ori 5 6 0x0F0) ∧ decodeInstr 0xF0037293 = some (.andi 5 6 (-256)) ∧
    decodeInstr 0x01F31293 = some (.slli 5 6 31) ∧ decodeInstr 0x00435293 = some (.srli 5 6 4) ∧
    decodeInstr 0x41F15093 = some (.srai 1 2 31) := by decide

theorem test_decode_upper_and_jumps :
    decodeInstr 0x800000B7 = some (.lui 1 0x80000) ∧ decodeInstr 0xFFFFF097 = some (.auipc 1 0xFFFFF) ∧
    decodeInstr 0x0017FFEF = some (.jal 31 0x7F800) ∧ decodeInstr 0xFFFFF0EF = some (.jal 1 (-2)) ∧
    decodeInstr 0x7FF100E7 = some (.jalr 1 2 2047) := by decide

theorem test_decode_branches :
    decodeInstr 0xFE208FE3 = some (.beq 1 2 (-2)) ∧ decodeInstr 0x00209463 = some (.bne 1 2 8) ∧
    decodeInstr 0x0020C463 = some (.blt 1 2 8) ∧ decodeInstr 0x0020D463 = some (.bge 1 2 8) ∧
    decodeInstr 0x0020E463 = some (.bltu 1 2 8) ∧ decodeInstr 0x41EFF063 = some (.bgeu 31 30 1024) := by decide

theorem test_decode_load_store :
    decodeInstr 0xFFF12083 = some (.lw 1 2 (-1)) ∧ decodeInstr 0x81FF2023 = some (.sw 30 31 (-2048)) ∧
    decodeInstr 0x00112FA3 = some (.sw 2 1 31) := by decide

/-- 95 section 2.7, two records in full. -/
theorem test_records :
    decodeRecord 0xFFF12093 = some ⟨.alu, some 2, none, some 1, 2, some 0xFFFFFFFF, false, false⟩ ∧
    decodeRecord 0x7FFF2FA3 = some ⟨.st, some 30, some 31, none, 0, some 0x7FF, true, true⟩ := by decide

/-- 95 section 2.8: the words with no canonical row. -/
theorem test_decode_reserved_and_unknown :
    decode 0x4020A1B3 = .reservedAlu 3 10 ∧ decode 0x4020F1B3 = .reservedAlu 3 15 ∧ decode 0x40311093 = .reservedAlu 1 9 ∧
    decode 0x0020A463 = .reservedBranch 8 ∧ decode 0x0020B463 = .reservedBranch 8 ∧
    decode 0x00000000 = .unknownOpcode 0 ∧ decode 0xFFFFFFFF = .unknownOpcode 0x7F ∧ decode 0x00000073 = .unknownOpcode 0x73 ∧
    decode 0x0000000F = .unknownOpcode 0x0F ∧ decode 0x00000001 = .unknownOpcode 1 := by decide

/-- 95 section 2.8: the aliased words. -/
theorem test_decode_aliases :
    decode 0x00010083 = .instr (.lw 1 2 0) ∧ decode 0x00014083 = .instr (.lw 1 2 0) ∧ decode 0x00111023 = .instr (.sw 2 1 0) ∧
    decode 0x022081B3 = .instr (.add 3 1 2) ∧ decode 0x000290E7 = .instr (.jalr 1 5 0) ∧ isCanonical 0x022081B3 = false := by
  decide

/-! ## Register-register (95 section 2.1, whole words stepped) -/

theorem test_add : runReg 0x002081B3 0x7FFFFFFF 1 = some 0x80000000 ∧ runReg 0x002081B3 0xFFFFFFFF 1 = some 0 := by decide
theorem test_sub : runReg 0x402081B3 0 1 = some 0xFFFFFFFF ∧ runReg 0x402081B3 0xDEADBEEF 0xFFFF = some 0xDEACBEF0 := by decide
theorem test_sll : runReg 0x002091B3 0x80000001 0x21 = some 2 ∧ runReg 0x002091B3 5 0xFFFFFFFB = some 0x28000000 := by decide
theorem test_slt : runReg 0x0020A1B3 0x80000000 0x7FFFFFFF = some 1 ∧ runReg 0x0020A1B3 0x7FFFFFFF 0x80000000 = some 0 := by decide
theorem test_sltu : runReg 0x0020B1B3 0x80000000 0x7FFFFFFF = some 0 ∧ runReg 0x0020B1B3 1 0xFFFFFFFF = some 1 := by decide
theorem test_xor : runReg 0x0020C1B3 0xDEADBEEF 0xFFFF = some 0xDEAD4110 := by decide
theorem test_srl : runReg 0x0020D1B3 0x80000001 0x1F = some 1 ∧ runReg 0x0020D1B3 0x80000001 0x20 = some 0x80000001 := by decide
theorem test_sra : runReg 0x4020D1B3 0x80000000 1 = some 0xC0000000 ∧ runReg 0x4020D1B3 0x80000001 0x21 = some 0xC0000000 := by
  decide
theorem test_or : runReg 0x0020E1B3 0xDEADBEEF 0xFFFF = some 0xDEADFFFF := by decide
theorem test_and : runReg 0x0020F1B3 0xDEADBEEF 0xFFFF = some 0xBEEF := by decide

/-- 95 section 2.1, register corner cases: the source that is the destination, and rd = 0. -/
theorem test_add_same_register : run 0x001080B3 0x1000 [(1, 0x80000001)] 1 = some (2, 0x1004) := by decide
theorem test_and_x0 : run 0x00007033 0x1000 [(1, 7)] 0 = some (0, 0x1004) := by decide

/-! ## Register-immediate (95 section 2.2) -/

theorem test_addi : runImm 0x7FF30293 0x7FFFFFFF = some 0x800007FE ∧ runImm 0x40030293 1 = some 0x401 := by decide
theorem test_slti : runImm 0xFFF32293 0x80000000 = some 1 ∧ runImm 0xFFF32293 0 = some 0 := by decide
theorem test_sltiu : runImm 0xFFF33293 0x12345678 = some 1 ∧ runImm 0x00133293 7 = some 0 := by decide
theorem test_xori : runImm 0xFFF34293 0x12345678 = some 0xEDCBA987 := by decide
theorem test_ori : runImm 0x0F036293 0x12345678 = some 0x123456F8 := by decide
theorem test_andi : runImm 0xF0037293 0x12345678 = some 0x12345600 := by decide
theorem test_slli : runImm 0x01F31293 1 = some 0x80000000 ∧ runImm 0x00031293 0x12345678 = some 0x12345678 := by decide
theorem test_srli : runImm 0x01F35293 0x80000000 = some 1 := by decide
theorem test_srai : runImm 0x41F35293 0x80000000 = some 0xFFFFFFFF ∧ runImm 0x41F35293 0x7FFFFFFF = some 0 := by decide

/-! ## LUI, AUIPC, JAL, JALR (95 sections 2.3 and 2.4) -/

theorem test_lui : run 0xDEADC0B7 0x1000 [] 1 = some (0xDEADC000, 0x1004) ∧ run 0x00001037 0x1000 [] 0 = some (0, 0x1004) := by
  decide
theorem test_auipc : run 0x00001097 0xFFFFF000 [] 1 = some (0, 0xFFFFF004) ∧
    run 0x00000297 0x1002 [] 5 = some (0x1002, 0x1006) := by decide
theorem test_jal_backward : run 0xFFDFF0EF 0x1000 [] 1 = some (0x1004, 0xFFC) := by decide
theorem test_jal_far : run 0x7FFFF0EF 0x1000 [] 1 = some (0x1004, 0x100FFE) ∧
    run 0x800000EF 0x1000 [] 1 = some (0x1004, 0xFFF01000) := by decide
theorem test_jalr_same_register : run 0x004282E7 0x1010 [(5, 0x2000)] 5 = some (0x1014, 0x2004) := by decide
theorem test_jalr_keeps_bit_zero : run 0x003280E7 0x1010 [(5, 0x2000)] 1 = some (0x1014, 0x2003) := by decide

/-! ## Branches (95 section 2.5) -/

theorem test_beq : runBranch 0x00208463 0xFFFFFFFF 0xFFFFFFFF = some true ∧ runBranch 0x00208463 1 0 = some false := by decide
theorem test_bne : runBranch 0x00209463 0 1 = some true ∧ runBranch 0x00209463 0 0 = some false := by decide
theorem test_blt : runBranch 0x0020C463 0x80000000 0x7FFFFFFF = some true ∧
    runBranch 0x0020C463 0xFFFFFFFF 0xFFFFFFFF = some false := by decide
theorem test_bge : runBranch 0x0020D463 1 0xFFFFFFFF = some true ∧ runBranch 0x0020D463 0x80000000 0 = some false := by decide
theorem test_bltu : runBranch 0x0020E463 1 0xFFFFFFFF = some true ∧ runBranch 0x0020E463 0x80000000 0 = some false := by decide
theorem test_bgeu : runBranch 0x0020F463 0x80000000 0x7FFFFFFF = some true ∧ runBranch 0x0020F463 0 1 = some false := by decide

/-- 95 section 2.5: offsets at the ends of the range. -/
theorem test_branch_offsets :
    run 0x7E000FE3 0x1000 [] 0 = some (0, 0x1FFE) ∧ run 0x80000063 0x1000 [] 0 = some (0, 0) ∧
    run 0xFE009CE3 0x1010 [(1, 1)] 1 = some (1, 0x1008) := by decide

/-! ## LW and SW (95 section 2.6) -/

theorem test_lw_ignores_low_bits :
    seen (step (((start 0x1000 [(6, 0x100)]).memWrite .data 0x100 0xCAFEF00D).withFetchWord 32 0x00332283)) 5 =
      some (0xCAFEF00D, 0x1004) := by decide
theorem test_lw_same_register_and_wrap :
    seen (step (((start 0x1000 [(2, 0x110)]).memWrite .data 0x100 0x55).withFetchWord 32 0xFF012103)) 2 = some (0x55, 0x1004) ∧
    seen (step (((start 0x1000 []).memWrite .data 0xFFFFFFFC 0xABCD).withFetchWord 32 0xFFC02283)) 5 =
      some (0xABCD, 0x1004) := by decide
theorem test_sw :
    wordAfter (step ((start 0x1000 [(1, 0x55), (3, 0x108)]).withFetchWord 32 0xFE11AC23)) .data 0x100 = some 0x55 := by decide
theorem test_sw_replaces_the_whole_word :
    wordAfter (step ((start 0x1000 [(6, 0x100), (7, 0x11223344)]).withFetchWord 32 0x007320A3)) .instr 0x100 =
      some 0x11223344 := by decide

/-! ## Words with no row (R102, R103, R105; 95 section 2.8) -/

/-- The value is the free value, the pc goes on. -/
theorem test_reserved_alu : run 0x4020A1B3 0x1000 [] 3 = some (Config.freeWord 0, 0x1004) := by rfl

/-- The pc is one of the two. -/
theorem test_reserved_branch : run 0x0020A463 0x1000 [] 1 = some (0, if Config.freeBool 0 then 0x1008 else 0x1004) := by
  have h : run 0x0020A463 0x1000 [] 1 = some (0, branchNextPc (Config.freeBool 0) 8 (start 0x1000 [])) := by rfl
  rw [h]
  cases Config.freeBool 0 <;> rfl

/-- UNKNOWN_OPCODE = refuse and = nop on the word of all zeros. -/
theorem test_unknown_opcode :
    runWord 0 { State.reset with params := { Params.default with unknownOpcode := .refuse } } = .refused (.unknownOpcode 0) ∧
    seen (runWord 0 { State.reset with params := { Params.default with unknownOpcode := .nop } }) 1 = some (0, 0x1004) :=
  ⟨rfl, by decide⟩

/-! ## Cycle level: the trace of R216, and the arbiter of 95 section 2.10 -/

/-- Scenario 1's block: the image is `ADDI x1,x0,1`. -/
def scenario1 : State := State.construct Params.default .unified [0x00100093]

theorem test_trace_cycle_1 : ticks 1 scenario1 = .next { scenario1 with iPort := ⟨true, 0x00100093⟩ } := by rfl
theorem test_trace_cycle_3 :
    seen (ticks 3 scenario1) 1 = some (1, 0x1004) ∧ seen (ticks 2 scenario1) 1 = some (0, 0x1000) := by decide

/-- A one-port bus with a write request in cycle 3 and 4 (95 section 2.10): the old word is read, the new one committed. -/
theorem test_arbiter_write :
    let request : Fin 1 → BusRequest := fun _ => ⟨0x104, 0xD1, true, true, true⟩
    let store : Memory := Memory.putWord [] 0x41 0xD0
    arbiterPort 30 (fun _ => 0) store request (fun _ => ⟨false, 0xD0⟩) 0 = ⟨true, 0xD0⟩ ∧
    arbiterStore 30 store request (fun _ => ⟨false, 0xD0⟩) = store ∧
    (arbiterStore 30 store request (fun _ => ⟨true, 0xD0⟩)).wordAt (fun _ => 0) 0x41 = 0xD1 ∧
    arbiterPort 30 (fun _ => 0) store request (fun _ => ⟨true, 0xD0⟩) 0 = ⟨false, 0xD0⟩ := by decide

/-- Two ports requesting at once (R49): port 0 first, then port 1, which still requests. -/
theorem test_arbiter_two_ports :
    let request : Fin 2 → BusRequest := fun _ => ⟨0x100, 0, false, true, true⟩
    grant request (fun _ => ⟨false, 0⟩) = some 0 ∧ grant request ![⟨true, 0⟩, ⟨false, 0⟩] = some 1 := by decide

/-! ## The assembler view (R110 to R112) -/

theorem test_assembly :
    (Instr.sw 3 1 (-8)).assembly = "SW x1,-8(x3)" ∧ (Instr.addi 1 1 (-273)).assembly = "ADDI x1,x1,-273" ∧
    (Instr.beq 2 1 16).assembly = "BEQ x2,x1,16" ∧ (Instr.lui 1 0xDEADC).assembly = "LUI x1,0xdeadc" := by decide +kernel

/-- R111: scenario 2's constant. -/
theorem test_li_constant : (Pseudo.liAny 1 0xDEADBEEF).expand = [.lui 1 0xDEADC, .addi 1 1 (-273)] := by decide

/-! ## Witnesses: encoding -/

/-- DecodeOfEncodeIsTheInstruction, StepRunsTheDecodedInstruction (2): well-formed instructions at the ends of their ranges. -/
theorem witness_wellFormed :
    (Instr.jal 31 (-1048576)).wellFormed = true ∧ (Instr.jal 0 1048574).wellFormed = true ∧
    (Instr.bgeu 31 0 (-4096)).wellFormed = true ∧ (Instr.beq 0 31 4094).wellFormed = true ∧
    (Instr.lui 31 0xFFFFF).wellFormed = true ∧ (Instr.sw 31 30 (-2048)).wellFormed = true ∧
    (Instr.srai 31 31 31).wellFormed = true := by decide

/-- TableRowsAreTheCanonicalWords, HardwareMaskDecidesTheRow: the first row and the last, each with a matching word. -/
theorem witness_tableRows :
    (Instr.lui 0 0).row ∈ opcodeTable ∧ (Instr.and 0 0 0).row ∈ opcodeTable ∧
    0x00007033#32 &&& (Instr.and 0 0 0).row.mask = (Instr.and 0 0 0).row.matched ∧
    0x02007033#32 &&& (Instr.and 0 0 0).row.hwMask = (Instr.and 0 0 0).row.matched &&& (Instr.and 0 0 0).row.hwMask := by
  decide

/-- RecordOfEachOpcodeClass: a word of each of the nine classes, and the two shifts beside their neighbours. -/
theorem witness_opcodeClasses :
    (0xDEADC0B7#32).extractLsb' 0 7 = 0b0110111#7 ∧ (0xFFFFF097#32).extractLsb' 0 7 = 0b0010111#7 ∧
    (0x7FFFF0EF#32).extractLsb' 0 7 = 0b1101111#7 ∧ (0xFFC280E7#32).extractLsb' 0 7 = 0b1100111#7 ∧
    (0xFE009CE3#32).extractLsb' 0 7 = 0b1100011#7 ∧ (0xFF012103#32).extractLsb' 0 7 = 0b0000011#7 ∧
    (0xFE11AC23#32).extractLsb' 0 7 = 0b0100011#7 ∧ (0x402081B3#32).extractLsb' 0 7 = 0b0110011#7 ∧
    ((0x01F31293#32).extractLsb' 0 7 = 0b0010011#7 ∧ (0x01F31293#32).extractLsb' 12 3 = 0b001#3) ∧
    ((0x41F35293#32).extractLsb' 0 7 = 0b0010011#7 ∧ (0x41F35293#32).extractLsb' 12 3 = 0b101#3) ∧
    ((0xFFF32293#32).extractLsb' 0 7 = 0b0010011#7 ∧ (0xFFF32293#32).extractLsb' 12 3 = 0b010#3) := by decide

/-- UnknownOpcodeFollowsItsParameter: words of no class, with `inst[1:0]` other than 11 and equal to it, and a state for each
value of the parameter. -/
theorem witness_unknownOpcode :
    decode 0x00000002 = .unknownOpcode ((0x00000002#32).extractLsb' 0 7) ∧ (0x00000002#32).extractLsb' 0 2 ≠ 0b11#2 ∧
    decode 0xFFFFFFFF = .unknownOpcode ((0xFFFFFFFF#32).extractLsb' 0 7) ∧
    ∀ u : UnknownOpcode, ∃ s : State, s.params.unknownOpcode = u :=
  ⟨by decide, by decide, by decide, fun u => ⟨{ State.reset with params := { Params.default with unknownOpcode := u } }, rfl⟩⟩

/-- LoadsAndStoresIgnoreFunct3: words whose funct3 is not 010. -/
theorem witness_loadStoreAliases :
    (0x00014083#32).extractLsb' 0 7 = 0b0000011#7 ∧ (0x00111023#32).extractLsb' 0 7 = 0b0100011#7 := by decide

/-- ReservedAluWordsStillRetire: rd = 0 and rd ≠ 0, class REG and class IMM. -/
theorem witness_reservedAlu :
    decode 0x4020A033 = .reservedAlu 0 10 ∧ decode 0x4020FFB3 = .reservedAlu 31 15 ∧ decode 0x40311093 = .reservedAlu 1 9 := by
  decide

/-- ReservedBranchWordsStillRetire: both codes, the least offset and the greatest. -/
theorem witness_reservedBranch :
    decode 0x8020A063 = .reservedBranch (-4096) ∧ decode 0x7E20BFE3 = .reservedBranch 4094 := by decide

/-! ## Witnesses: registers and instructions -/

/-- The state the witnesses below start from: three registers set, pc 0x100C. -/
def sample : State := start 0x100C [(1, 0x55), (2, 0x110), (3, 0x108)]

/-- RegisterZeroIsHardwired: an index other than 0, and an instruction with rd = 0, no jump, that gives a next state. -/
theorem witness_registerZero :
    (31 : RegIdx) ≠ 0 ∧ (Instr.addi 0 0 5).record.rd = some 0 ∧ (Instr.addi 0 0 5).record.itype ∉ [IType.j, .jr] ∧
    ∃ t, exec (.addi 0 0 5) sample = .next t := ⟨by decide, rfl, by decide, _, rfl⟩

/-- ImmediateShifts (the reserved word beside SLLI) and JumpAndLinkRegister (a JALR word whose funct3 is not 000). -/
theorem witness_ignoredAndReservedFunct3 :
    ((0x40311093#32).extractLsb' 0 7 = 0b0010011#7 ∧ (0x40311093#32).extractLsb' 12 3 = 0b001#3 ∧
      (0x40311093#32).extractLsb' 30 1 = 1#1) ∧
    (0x000290E7#32).extractLsb' 0 7 = 0b1100111#7 ∧ (0x000290E7#32).extractLsb' 12 3 ≠ 0b000#3 := by decide

/-- OnlyNamedRegistersTakePart: a register that is not the destination, and a register file that agrees with the state on
the enabled sources only. -/
theorem witness_onlyNamedRegisters :
    ((Instr.add 3 1 2).record.rd ≠ some 2 ∧ ∃ t, exec (.add 3 1 2) sample = .next t) ∧
    ∃ regs : Vector Word 32, regs ≠ sample.regs ∧ (Instr.lw 4 3 (-8)).record.rs1 = some 3 ∧ regRead regs 3 = sample.x 3 ∧
      (Instr.lw 4 3 (-8)).record.rs2 = none ∧ (∃ t, exec (.lw 4 3 (-8)) sample = .next t) ∧
      ∃ t', exec (.lw 4 3 (-8)) { sample with regs := regs } = .next t' :=
  ⟨⟨by decide, _, rfl⟩, sample.regs.set 1 7, by decide, rfl, by decide, rfl, ⟨_, rfl⟩, _, rfl⟩

/-- AluComputesItsTable: each list of selectors, first and last. -/
theorem witness_aluSelectors : (0 : BitVec 4) ∈ [0#4, 1#4, 2#4, 3#4, 4#4, 5#4, 6#4, 7#4, 8#4, 13#4] ∧
    (15 : BitVec 4) ∈ [9#4, 10#4, 11#4, 12#4, 14#4, 15#4] := by decide

/-- RetiresFromExecute (in the rules of every instruction but LW and SW): a state in EXECUTE with the word latched. -/
theorem witness_executeState (i : Instr) : ∃ s : State, s.fsm = .execute ∧ s.inst = encode i :=
  ⟨{ sample with fsm := .execute, inst := encode i }, rfl, rfl⟩

/-- JumpAndLink and ConditionalBranches: even offsets at the ends of the range. -/
theorem witness_evenOffsets :
    (BitVec.ofInt 21 (-1048576)).getLsbD 0 = false ∧ (1048574#21).getLsbD 0 = false ∧
    (BitVec.ofInt 13 (-4096)).getLsbD 0 = false ∧ (4094#13).getLsbD 0 = false := by decide

/-- LoadWord and StoreWord, cycle clauses: a state with the word latched in each of the two FSM states, and both answers. -/
theorem witness_memoryCycles (f : Fsm) (a : Bool) :
    ∃ (s : State) (d : PortResponse), s.inst = encode (.lw 2 2 (-16)) ∧ s.fsm = f ∧ d.acknowledge = a ∧
      ∃ u : State, u.inst = encode (.sw 3 1 (-8)) ∧ u.fsm = f :=
  ⟨{ sample with fsm := f, inst := encode (.lw 2 2 (-16)) }, ⟨0, a⟩, rfl, rfl, rfl,
    { sample with fsm := f, inst := encode (.sw 3 1 (-8)) }, rfl, rfl⟩

/-- StoreWord: the index of the stored word, its four bytes and the addresses on both sides, under both topologies. -/
theorem witness_storeWord :
    sample.index (sample.x 3 + signedWord (-8)) = 0x40 ∧ (0xFF < 4 * 0x40 ∧ 4 * 0x40 + 4 ≤ 0x104 ∧ 3 < 4) ∧
    sample.stores.topology = .unified ∧ ({ sample with stores := .split [] [] } : State).stores.topology = .split := by decide

/-- OnlyLoadsAndStoresTouchTheDataPort: a load (no store) and an ADD (no access) that give a next state. -/
theorem witness_dataPort :
    (Instr.lw 2 2 (-16)).record.memOpStore = false ∧ (∃ t, exec (.lw 2 2 (-16)) sample = .next t) ∧
    (Instr.add 1 2 3).record.memOpEn = false ∧ ∃ t, exec (.add 1 2 3) sample = .next t :=
  ⟨rfl, ⟨_, rfl⟩, rfl, _, rfl⟩

/-- OnlyJalrChangesTheLowestPcBit: a jump, a taken branch and a store, each well formed with a next state. -/
theorem witness_lowestPcBit :
    ((Instr.jal 1 2).wellFormed = true ∧ (Instr.jal 1 2).record.itype ≠ .jr ∧ ∃ t, exec (.jal 1 2) sample = .next t) ∧
    ((Instr.beq 0 0 4094).wellFormed = true ∧ (Instr.beq 0 0 4094).record.itype ≠ .jr ∧
      ∃ t, exec (.beq 0 0 4094) sample = .next t) ∧
    ((Instr.sw 3 1 (-8)).record.itype ∉ [IType.j, .jr, .br] ∧ ∃ t, exec (.sw 3 1 (-8)) sample = .next t) :=
  ⟨⟨rfl, by decide, _, rfl⟩, ⟨rfl, by decide, _, rfl⟩, by decide, _, rfl⟩

/-! ## Witnesses: memory and construction -/

/-- ReadAfterWriteOfAWholeWord and AddressSelectsAWord: addresses of one index and of the next, bytes on both sides. -/
theorem witness_words :
    sample.index 0x100 = sample.index 0x103 ∧ sample.index 0x100 ≠ sample.index 0x104 ∧ 0xFF / 4 ≠ sample.index 0x100 ∧
    0x104 / 4 ≠ sample.index 0x100 ∧ sample.index 0xFFFFFFFF = 2 ^ 30 - 1 ∧ storeIndex 0 0xFFFFFFFF = 0 := by decide

/-- LoadAfterStoreReturnsTheValue: the SW and LW of R217, same word, and an LW of the next word. -/
theorem witness_loadAfterStore :
    ∃ t, exec (.sw 3 1 (-8)) sample = .next t ∧ (∃ u, exec (.lw 2 2 (-16)) t = .next u) ∧
      (∃ u, exec (.lw 2 2 (-12)) t = .next u) ∧
      sample.index (sample.x 2 + signedWord (-16)) = sample.index (sample.x 3 + signedWord (-8)) ∧
      sample.index (sample.x 2 + signedWord (-12)) ≠ sample.index (sample.x 3 + signedWord (-8)) :=
  ⟨_, rfl, ⟨_, rfl⟩, ⟨_, rfl⟩, by decide, by decide⟩

/-- StoresAndInstructionFetch: a store over the next instruction, under both topologies. -/
theorem witness_storeOverCode :
    let unified := start 0x1000 [(5, 0x1004), (6, 0x13)]
    let split : State := { unified with stores := .split [] [] }
    (unified.stores.topology = .unified ∧ unified.index (unified.x 5 + signedWord 0) = unified.index (0x1000 + 4) ∧
      ∃ t, exec (.sw 5 6 0) unified = .next t) ∧
    split.stores.topology = .split ∧ ∃ t, exec (.sw 5 6 0) split = .next t :=
  ⟨⟨rfl, by decide, _, rfl⟩, rfl, _, rfl⟩

/-- ImageIsLoadedAtTheResetAddress: an image that fills a store of two words exactly, from a misaligned RESET_ADDR at the top
of the address space, so that it wraps; and a byte outside a one-word image. -/
theorem witness_image :
    let p : Params := { Params.default with resetAddr := 0xFFFFFFFE, storeIndexBits := 1 }
    [(0x13 : Word), 0x6F].length ≤ 2 ^ p.storeIndexBits ∧ p.storeIndexBits ≤ 30 ∧
    (State.construct p .split [0x13, 0x6F]).memRead .instr 0xFFFFFFFC = 0x13 ∧
    (State.construct p .split [0x13, 0x6F]).memRead .instr 0 = 0x6F ∧
    (∀ i < [(0x13 : Word)].length, 3 / 4 ≠ storeIndex p.storeIndexBits (p.resetAddr + BitVec.ofNat 32 (4 * i))) := by
  decide

/-! ## Witnesses: bus and sequencer -/

/-- ArbiterTickUpdatesItsState: a granted port and one that is not; a port that commits alone; a bus where none commits. -/
theorem witness_arbiter :
    let read : Fin 2 → BusRequest := fun _ => ⟨0x100, 0, false, true, true⟩
    let write : Fin 2 → BusRequest := fun _ => ⟨0x100, 7, true, true, true⟩
    let regs : Fin 2 → PortRegs := ![⟨false, 0⟩, ⟨true, 0⟩]
    grant read regs = some 0 ∧ grant read regs ≠ some 1 ∧
    ((write 1).cycle = true ∧ (write 1).strobe = true ∧ (write 1).writeEnable = true ∧ (regs 1).ack = true ∧
      ∀ q, q ≠ 1 → (regs q).ack = false) ∧
    (∀ p, ¬((read p).cycle = true ∧ (read p).strobe = true ∧ (read p).writeEnable = true ∧ (regs p).ack = true)) ∧
    (arbiterPort 30 (fun _ => 0) [] read regs 0).ack = true := by decide

/-- A state in WRITE with a load latched, waiting; coherent with the bus. -/
def loading : State := { sample with fsm := .write, inst := encode (.lw 2 2 (-16)) }

/-- A state in WRITE with a store latched and acknowledged; coherent with the bus. -/
def storing : State :=
  { sample with
    fsm := .write
    inst := encode (.sw 3 1 (-8))
    dPort := ⟨true, ({ sample with fsm := .write, inst := encode (.sw 3 1 (-8)) } : State).memRead .data 0x100⟩ }

/-- PortRequestsOfEachState: each FSM state, with a load and a store latched. -/
theorem witness_portRequests :
    sample.fsm = .fetch ∧ (∃ s : State, s.fsm = .execute) ∧
    (loading.fsm = .write ∧ decode loading.inst = .instr (.lw 2 2 (-16))) ∧
    storing.fsm = .write ∧ decode storing.inst = .instr (.sw 3 1 (-8)) :=
  ⟨by decide, ⟨{ sample with fsm := .execute }, rfl⟩, by decide, by decide⟩

/-- FetchStateOfTheCore: FETCH with either answer. -/
theorem witness_fetchState (a : Bool) : ∃ (s : State) (r : PortResponse), s.fsm = .fetch ∧ r.acknowledge = a :=
  ⟨State.reset, ⟨0, a⟩, rfl, rfl⟩

theorem coherent_sample : sample.coherent := ⟨rfl, nofun⟩

theorem coherent_loading : loading.coherent := ⟨rfl, by decide, nofun⟩

theorem coherent_storing : storing.coherent := ⟨rfl, by decide, fun _ => by rfl⟩

/-- RetiredPulsesOncePerCommit, TicksKeepCoreAndBusCoherent, EveryCycleIsNearARetirement: coherent states, before a fetch, in
EXECUTE, waiting in WRITE and committing in WRITE, each with a next tick. -/
theorem witness_coherentTicks :
    (sample.coherent ∧ sample.params.unknownOpcode ≠ .refuse ∧ ∃ t, tick false sample = .next t) ∧
    (loading.coherent ∧ ∃ t, tick false loading = .next t ∧ t.retired = false) ∧
    (storing.coherent ∧ ∃ t, tick false storing = .next t ∧ t.retired = true) ∧
    ∃ s t : State, s.coherent ∧ s.fsm = .execute ∧ s.latchedMemOp = false ∧ tick false s = .next t :=
  ⟨⟨coherent_sample, by decide, _, rfl⟩, ⟨coherent_loading, _, rfl, rfl⟩, ⟨coherent_storing, _, rfl, rfl⟩,
    { sample with fsm := .execute, inst := encode (.add 1 2 3) }, _, ⟨rfl, rfl⟩, rfl, by decide, rfl⟩

/-- RefusedOpcodeStopsTheClockedRun: coherent states under `refuse`, one with a word of class REG latched and one with a word
of no class, which has no next tick. -/
theorem witness_refuseTicks :
    let at_ (w : Word) : State :=
      { sample with params := { sample.params with unknownOpcode := .refuse }, fsm := .execute, inst := w }
    ((at_ 0x402081B3).coherent ∧ (at_ 0x402081B3).params.unknownOpcode = .refuse ∧ classOf (at_ 0x402081B3).inst ≠ none) ∧
    ((at_ 0x00000073).coherent ∧ (at_ 0x00000073).params.unknownOpcode = .refuse ∧ classOf (at_ 0x00000073).inst = none ∧
      ticks 1 (at_ 0x00000073) = .refused (.unknownOpcode 0x00000073)) :=
  ⟨⟨⟨rfl, rfl⟩, rfl, by decide⟩, ⟨rfl, rfl⟩, rfl, by decide, rfl⟩

/-- CoreWaitsForTheAcknowledge: both waiting states, with two cycles of waiting. -/
theorem witness_waiting :
    (sample.retired = false ∧ sample.fsm = .fetch) ∧
    (loading.retired = false ∧ loading.fsm = .write ∧ loading.latchedMemOp = true) ∧
    (∀ r ∈ [((⟨1, false⟩ : PortResponse), (⟨2, true⟩ : PortResponse)), (⟨3, false⟩, ⟨4, false⟩)], r.1.acknowledge = false) ∧
    ∀ r ∈ [((⟨1, true⟩ : PortResponse), (⟨2, false⟩ : PortResponse)), (⟨3, false⟩, ⟨4, false⟩)], r.2.acknowledge = false := by
  decide

/-- CoreToleratesAnyLatency: a non-memory instruction and a store, with one cycle and with no cycle of waiting. -/
theorem witness_anyLatency :
    sample.fsm = .fetch ∧ (∀ r ∈ [((⟨1, false⟩ : PortResponse), (⟨2, true⟩ : PortResponse))], r.1.acknowledge = false) ∧
    (∀ r ∈ ([] : List (PortResponse × PortResponse)), r.2.acknowledge = false) ∧
    ((Instr.add 1 2 3).wellFormed = true ∧ (Instr.add 1 2 3).record.memOpEn = false ∧ ∃ t, exec (.add 1 2 3) sample = .next t) ∧
    ((Instr.sw 3 1 (-8)).wellFormed = true ∧ (Instr.sw 3 1 (-8)).record.memOpEn = true ∧
      ∃ t, exec (.sw 3 1 (-8)) sample = .next t) :=
  ⟨by decide, by decide, by decide, ⟨rfl, rfl, _, rfl⟩, rfl, rfl, _, rfl⟩

/-- TicksReachTheStep: an instruction boundary with a three-tick word and one with a five-tick word. -/
theorem witness_boundary :
    (sample.withFetchWord 32 0x002081B3).atBoundary = true ∧
    classOf (sample.withFetchWord 32 0x002081B3).fetchWord = some .reg ∧
    (sample.withFetchWord 32 0xFF012103).atBoundary = true ∧
    classOf (sample.withFetchWord 32 0xFF012103).fetchWord = some .load := by decide

/-! ## Witnesses: the step, the invariants, reset -/

/-- StepRunsTheDecodedInstruction (1). -/
theorem witness_decodedFetch :
    (sample.withFetchWord 32 0x402081B3).atBoundary = true ∧
    decode (sample.withFetchWord 32 0x402081B3).fetchWord = .instr (.sub 3 1 2) := by decide

/-- StepStopsOnlyOnARefusedOpcode: both sides of the equivalence occur at a boundary. -/
theorem witness_refusedStep :
    let s : State := { sample with params := { sample.params with unknownOpcode := .refuse } }
    (s.withFetchWord 32 0).atBoundary = true ∧ step (s.withFetchWord 32 0) = .refused (.unknownOpcode 0) ∧
    ∃ t, step (s.withFetchWord 32 0x13) = .next t :=
  ⟨by decide, rfl, _, rfl⟩

/-- StepEndsAtABoundary, StepKeepsTheStateWellFormed, TickKeepsTheStateWellFormed: well-formed states with a next step, at a
boundary and in the middle of an instruction, and with a next tick, `rst` or not. -/
theorem witness_wellFormedSteps :
    sample.wf ∧ (∃ t, step (sample.withFetchWord 32 0xFE11AC23) = .next t) ∧ (sample.withFetchWord 32 0xFE11AC23).wf ∧
    loading.wf ∧ loading.atBoundary = false ∧ (∃ t, step loading = .next t) ∧ (∃ t, tick false loading = .next t) ∧
    ∃ t, tick true loading = .next t :=
  ⟨⟨by decide, by decide, by decide, by decide⟩, ⟨_, rfl⟩, ⟨by decide, by decide, by decide, by decide⟩,
    ⟨by decide, by decide, by decide, by decide⟩, by decide, ⟨_, rfl⟩, ⟨_, rfl⟩, _, rfl⟩

/-- ConstructionIsWellFormed: parameters at both ends of the range of STORE_INDEX_BITS. -/
theorem witness_params :
    ({ Params.default with storeIndexBits := 1 } : Params).wf ∧ Params.default.wf ∧
    ¬({ Params.default with storeIndexBits := 31 } : Params).wf := by decide

/-- ResetRestartsOverTheMemoryAsItIs: a register other than 0. -/
theorem witness_otherRegister : (1 : RegIdx) ≠ 0 ∧ (31 : RegIdx) ≠ 0 := by decide

end Sys2Proof.Tests
end

/-! ## The instructions by their shared templates -/

namespace Sys2Proof.Machine

/-- A case split of the 31 instructions by the shared template of their rules: the ten REG, nine IMM and six BRANCH
instructions are one case each, with the record and the effect of the template (R123, R140, R172). -/
theorem instr_by_template {motive : Instr → Prop}
    (reg : ∀ i op rd rs1 rs2, i.record = recordReg op rd rs1 rs2 → exec i = regAlu op rd rs1 rs2 → motive i)
    (imm : ∀ i op rd rs1 v, i.record = recordImm op rd rs1 v → exec i = immAlu op rd rs1 v → motive i)
    (branch : ∀ i c rs1 rs2 off, i.record = recordBranch c rs1 rs2 off → exec i = branchOn c rs1 rs2 off → motive i)
    (lui : ∀ rd imm20, motive (.lui rd imm20)) (auipc : ∀ rd imm20, motive (.auipc rd imm20))
    (jal : ∀ rd off, motive (.jal rd off)) (jalr : ∀ rd rs1 v, motive (.jalr rd rs1 v))
    (lw : ∀ rd rs1 v, motive (.lw rd rs1 v)) (sw : ∀ rs1 rs2 v, motive (.sw rs1 rs2 v)) (i : Instr) : motive i := by
  cases i with
  | lui rd imm20 => exact lui rd imm20
  | auipc rd imm20 => exact auipc rd imm20
  | jal rd off => exact jal rd off
  | jalr rd rs1 v => exact jalr rd rs1 v
  | lw rd rs1 v => exact lw rd rs1 v
  | sw rs1 rs2 v => exact sw rs1 rs2 v
  | beq | bne | blt | bge | bltu | bgeu => exact branch _ _ _ _ _ rfl rfl
  | addi | slti | sltiu | xori | ori | andi | slli | srli | srai => exact imm _ _ _ _ _ rfl rfl
  | add | sub | sll | slt | sltu | xor | srl | sra | or | and => exact reg _ _ _ _ _ rfl rfl

/-! ## Registers -/

/-- A write to the hardwired register changes nothing at all (R11). -/
@[simp] theorem writeX_zero (s : State) (v : Word) : s.writeX 0 v = s := rfl

/-- An instruction with destination 0 retires with every register as before, at `pc + 4` unless it jumps (R11). -/
theorem exec_of_rd_zero (i : Instr) (s : State) (hrd : i.record.rd = some 0) :
    ∃ t, exec i s = .next t ∧ SameRegs s t ∧ Committed t.pc t ∧ (i.record.itype ∉ [.j, .jr] → t.pc = s.pc + 4) := by
  cases i using instr_by_template with
  | reg i op rd rs1 b hr he | imm i op rd rs1 b hr he =>
    rw [hr] at hrd; cases hrd
    exact ⟨s.retire s.pc4, by rw [he]; rfl, fun _ => rfl, ⟨rfl, rfl, rfl⟩, fun _ => rfl⟩
  | branch i c rs1 rs2 off hr _ => rw [hr] at hrd; cases hrd
  | lui | auipc => cases hrd; exact ⟨s.retire s.pc4, rfl, fun _ => rfl, ⟨rfl, rfl, rfl⟩, fun _ => rfl⟩
  | jal rd off => cases hrd; exact ⟨s.retire (jalTarget off s), rfl, fun _ => rfl, ⟨rfl, rfl, rfl⟩, by simp [Instr.record]⟩
  | jalr rd rs1 v =>
    cases hrd; exact ⟨s.retire (jalrTarget rs1 v s), rfl, fun _ => rfl, ⟨rfl, rfl, rfl⟩, by simp [Instr.record]⟩
  | lw rd rs1 v =>
    cases hrd
    exact ⟨(s.latchData (s.memRead .data (effectiveAddress rs1 v s))).retire s.pc4, rfl, fun _ => rfl, ⟨rfl, rfl, rfl⟩,
      fun _ => rfl⟩
  | sw => cases hrd

/-- Settles O11, from the register file's laws and the templates' commits with destination 0. -/
theorem registerZeroIsHardwired : Obligations.RegisterZeroIsHardwired := by
  refine ⟨x_zero, fun _ _ _ => rfl, fun s i r v hi => ?_, fun _ _ t _ => x_zero t, exec_of_rd_zero, fun s rs1 v => ?_⟩
  · simp [x_writeX, hi]
  · exact ⟨_, rfl, rfl⟩

/-- R14: the register write port is driven with the record's destination only. -/
theorem exec_other_register {i : Instr} {s t : State} {r : RegIdx} (h : exec i s = .next t) (hr : i.record.rd ≠ some r) :
    t.x r = s.x r := by
  cases i using instr_by_template with
  | reg i op rd rs1 b hrec he | imm i op rd rs1 b hrec he =>
    rw [he] at h; cases h
    rw [hrec] at hr
    exact x_writeX_ne s _ fun e => hr (congrArg some e.symm)
  | branch i c rs1 rs2 off _ he => rw [he] at h; cases h; rfl
  | lui | auipc | jal | jalr => cases h; exact x_writeX_ne s _ fun e => hr (congrArg some e.symm)
  | lw => cases h; exact x_writeX_ne (s.latchData _) _ fun e => hr (congrArg some e.symm)
  | sw => cases h; rfl

/-- Two outcomes agree on what an instruction with destination `rd` may change (R14). -/
def SameOutcome (rd : Option RegIdx) (t t' : State) : Prop :=
  t'.pc = t.pc ∧ t'.stores = t.stores ∧ t'.dPort = t.dPort ∧ ∀ r, rd = some r → t'.x r = t.x r

/-- The two commits of one register write and next pc, from states that differ in the registers only. -/
theorem sameOutcome_commit (s : State) (regs : Vector Word 32) (rd : RegIdx) (v npc : Word) :
    SameOutcome (some rd) ((s.writeX rd v).retire npc) ((({ s with regs := regs } : State).writeX rd v).retire npc) :=
  ⟨rfl, rfl, rfl, fun r hr => by cases hr; simp⟩

/-- R14: registers that the record does not enable as a source take no part. -/
theorem sameOutcome_of_enabled_sources {i : Instr} {s t t' : State} {regs : Vector Word 32}
    (h1 : ∀ r, i.record.rs1 = some r → ({ s with regs := regs } : State).x r = s.x r)
    (h2 : ∀ r, i.record.rs2 = some r → ({ s with regs := regs } : State).x r = s.x r)
    (h : exec i s = .next t) (h' : exec i { s with regs := regs } = .next t') : SameOutcome i.record.rd t t' := by
  cases i using instr_by_template with
  | reg i op rd rs1 rs2 hr he =>
    rw [hr] at h1 h2 ⊢
    rw [he] at h h'
    simp only [regAlu, h1 rs1 rfl, h2 rs2 rfl] at h'
    cases h; cases h'
    exact sameOutcome_commit s regs rd _ _
  | imm i op rd rs1 v hr he =>
    rw [hr] at h1 ⊢
    rw [he] at h h'
    simp only [immAlu, h1 rs1 rfl] at h'
    cases h; cases h'
    exact sameOutcome_commit s regs rd _ _
  | branch i c rs1 rs2 off hr he =>
    rw [hr] at h1 h2 ⊢
    rw [he] at h h'
    simp only [branchOn, h1 rs1 rfl, h2 rs2 rfl] at h'
    cases h; cases h'
    exact ⟨rfl, rfl, rfl, nofun⟩
  | lui rd | auipc rd | jal rd => cases h; cases h'; exact sameOutcome_commit s regs rd _ _
  | jalr rd rs1 v =>
    simp only [exec, execJalr, jalrTarget, h1 rs1 rfl] at h'
    cases h; cases h'
    exact sameOutcome_commit s regs rd _ _
  | lw rd rs1 v =>
    simp only [exec, execLw, effectiveAddress, h1 rs1 rfl] at h'
    cases h; cases h'
    exact sameOutcome_commit (s.latchData _) regs rd _ _
  | sw rs1 rs2 v =>
    simp only [exec, execSw, effectiveAddress, h1 rs1 rfl, h2 rs2 rfl] at h'
    cases h; cases h'
    exact ⟨rfl, rfl, rfl, nofun⟩

/-- Settles O12, by the templates of the instruction rules. -/
theorem onlyNamedRegistersTakePart : Obligations.OnlyNamedRegistersTakePart :=
  ⟨fun _ _ _ _ => exec_other_register, fun _ _ _ _ _ h1 h2 => sameOutcome_of_enabled_sources h1 h2⟩

/-- Settles O56: the surface lists what each register reads. -/
theorem debugSurfaceShowsTheRegisters : Obligations.DebugSurfaceShowsTheRegisters :=
  fun s => ⟨rfl, rfl, by simp [State.debugSurface], fun r => by simp [State.debugSurface]⟩

/-! ## What one tick can do -/

/-- The block's tick with `rst` held 0, by situation (R202 to R206): `TickTo s t` says that a tick leads from `s` to `t`. -/
inductive TickTo (s : State) : State → Prop
  | fetchWait (hf : s.fsm = .fetch) (ha : s.iPort.ack = false) :
      TickTo s { s with retired := false, iPort := ⟨true, s.fetchWord⟩, dPort := ⟨false, s.dPort.rdata⟩ }
  | fetchLatch (hf : s.fsm = .fetch) (ha : s.iPort.ack = true) :
      TickTo s { s.quiet with retired := false, fsm := .execute, inst := s.iPort.rdata }
  | unknownOpcode {t : State} (hf : s.fsm ≠ .fetch) (hr : decodeRecord s.inst = none)
      (h : execUnknownOpcode s.inst s.quiet = .next t) : TickTo s t
  | executeMemOp {r : DecodedInstruction} (hf : s.fsm = .execute) (hr : decodeRecord s.inst = some r)
      (hm : r.memOpEn = true) : TickTo s { s.quiet with fsm := .write, retired := false }
  | executeCommit {r : DecodedInstruction} (hf : s.fsm = .execute) (hr : decodeRecord s.inst = some r)
      (hm : r.memOpEn = false) : TickTo s (commitRecord r (writeBack r s.quiet) s.quiet)
  | writeWait {r : DecodedInstruction} (hf : s.fsm = .write) (hr : decodeRecord s.inst = some r)
      (ha : s.dPort.ack = false) :
      TickTo s { s with
        retired := false, iPort := ⟨false, s.iPort.rdata⟩, dPort := ⟨true, s.memRead .data (aluOut r s).1⟩ }
  | writeCommit {r : DecodedInstruction} (hf : s.fsm = .write) (hr : decodeRecord s.inst = some r)
      (ha : s.dPort.ack = true) :
      TickTo s { commitRecord r (if r.memOpStore then none else some s.dPort.rdata) s with
        iPort := ⟨false, s.iPort.rdata⟩
        dPort := ⟨false, s.dPort.rdata⟩
        stores := if r.memOpStore then s.stores.putWord .data (s.index (aluOut r s).1) s.rv2 else s.stores }

/-- Every tick that gives a next state is in one of the situations. -/
theorem tickTo_of_tick {s t : State} (h : tick false s = .next t) : TickTo s t := by
  cases hf : s.fsm with
  | fetch =>
    cases ha : s.iPort.ack with
    | false => cases (tick_fetch_wait s hf ha).symm.trans h; exact .fetchWait hf ha
    | true => cases (tick_fetch_latch s hf ha).symm.trans h; exact .fetchLatch hf ha
  | execute =>
    rw [tick_execute s hf] at h
    cases hr : decodeRecord s.inst with
    | none => exact .unknownOpcode (by simp [hf]) hr (by simpa only [hr] using h)
    | some r =>
      cases hm : r.memOpEn with
      | false =>
        simp only [hr, hm, Bool.false_eq_true, if_false] at h
        cases h
        exact .executeCommit hf hr hm
      | true =>
        simp only [hr, hm, if_true] at h
        cases h
        exact .executeMemOp hf hr hm
  | write =>
    cases hr : decodeRecord s.inst with
    | none => exact .unknownOpcode (by simp [hf]) hr ((tick_write_unknown s hf hr).symm.trans h)
    | some r =>
      cases ha : s.dPort.ack with
      | false => cases (tick_write_wait s hf r hr ha).symm.trans h; exact .writeWait hf hr ha
      | true => cases (tick_write_commit s hf r hr ha).symm.trans h; exact .writeCommit hf hr ha

@[simp] theorem tick_rst (s : State) : tick true s = .next s.applyReset := rfl

/-! ## Well-formed states: what each operation keeps -/

/-- A state with the parameters and the slot of register zero of a well-formed one, and with well-formed stores. -/
theorem wf_of_frame {s t : State} (hs : s.wf) (hp : t.params = s.params) (h0 : t.regs[0] = s.regs[0])
    (hm : t.stores.wf s.params.storeIndexBits) : t.wf := by
  obtain ⟨hparams, hzero, -⟩ := hs
  exact ⟨hp ▸ hparams, h0.trans hzero, hp ▸ hm⟩

theorem stores_wf_of_wf {s : State} (hs : s.wf) : s.stores.wf s.params.storeIndexBits := hs.2.2

theorem wf_writeX {s : State} (i : RegIdx) (v : Word) (hs : s.wf) : (s.writeX i v).wf :=
  wf_of_frame hs rfl (regWrite_slot_zero _ _ _) (stores_wf_of_wf hs)

theorem wf_memWrite {s : State} (p : PortId) (a v : Word) (hs : s.wf) : (s.memWrite p a v).wf :=
  wf_of_frame hs rfl rfl (stores_putWord_wf p v (stores_wf_of_wf hs) (index_lt s a))

/-- The reset values are well formed because REG_INIT has the hardwired zero (R29). -/
theorem wf_applyReset {s : State} (hs : s.wf) : s.applyReset.wf := by
  obtain ⟨⟨hlow, hhigh, hinit⟩, -, hstores⟩ := hs
  exact ⟨⟨hlow, hhigh, hinit⟩, hinit, hstores⟩

/-- A commit writes registers through the register file only, so never the slot of register zero. -/
theorem commitRecord_slot_zero (d : DecodedInstruction) (wb : Option Word) (s : State) :
    (commitRecord d wb s).regs[0] = s.regs[0] := by
  cases h : d.rd <;> cases wb <;> simp [commitRecord, h]

theorem wf_commitRecord {s : State} (d : DecodedInstruction) (wb : Option Word) (hs : s.wf) : (commitRecord d wb s).wf := by
  obtain ⟨-, -, hp, -, hm⟩ := commitRecord_frame d wb s
  exact wf_of_frame hs hp (commitRecord_slot_zero d wb s) (hm ▸ stores_wf_of_wf hs)

theorem wf_execUnknownOpcode {s t : State} (w : Word) (hs : s.wf) (h : execUnknownOpcode w s = .next t) : t.wf := by
  obtain ⟨-, he⟩ | ⟨-, he⟩ | ⟨-, he⟩ := execUnknownOpcode_cases s w <;> cases he.symm.trans h
  · exact hs
  · exact wf_writeX _ _ hs

theorem wf_exec {s t : State} (i : Instr) (hs : s.wf) (h : exec i s = .next t) : t.wf := by
  cases i using instr_by_template with
  | reg i op rd rs1 b _ he | imm i op rd rs1 b _ he => rw [he] at h; cases h; exact wf_writeX rd _ hs
  | branch i c rs1 rs2 off _ he => rw [he] at h; cases h; exact hs
  | lui rd | auipc rd | jal rd | jalr rd => cases h; exact wf_writeX rd _ hs
  | lw rd rs1 v => cases h; exact wf_writeX (s := s.latchData _) rd _ hs
  | sw rs1 rs2 v => cases h; exact wf_memWrite (s := s.latchData _) .data _ _ hs

theorem wf_runWord {s t : State} (w : Word) (hs : s.wf) (h : runWord w s = .next t) : t.wf := by
  unfold runWord at h
  cases hd : decode w <;> simp only [hd] at h
  case instr i => exact wf_exec i hs h
  case reservedAlu rd _ => cases h; exact wf_writeX rd _ hs
  case reservedBranch => cases h; exact hs
  case unknownOpcode => exact wf_execUnknownOpcode w hs h

/-- The one store a tick writes is the data port's, in the acknowledge cycle of an SW. -/
theorem wf_tick {rst : Bool} {s t : State} (hs : s.wf) (h : tick rst s = .next t) : t.wf := by
  cases rst with
  | true => cases h; exact wf_applyReset hs
  | false =>
    cases tickTo_of_tick h with
    | fetchWait | fetchLatch | executeMemOp | writeWait => exact hs
    | unknownOpcode _ _ h => exact wf_execUnknownOpcode (s := s.quiet) _ hs h
    | executeCommit => exact wf_commitRecord (s := s.quiet) _ _ hs
    | writeCommit =>
      obtain ⟨-, -, hp, -, -⟩ := commitRecord_frame _ _ s
      refine wf_of_frame hs hp (commitRecord_slot_zero _ _ s) ?_
      dsimp only
      split
      · exact stores_putWord_wf .data _ (stores_wf_of_wf hs) (index_lt s _)
      · exact stores_wf_of_wf hs

theorem wf_runToBoundary {fuel : Nat} {s t : State} (hs : s.wf) (h : runToBoundary fuel s = .next t) : t.wf := by
  induction fuel generalizing s with
  | zero => cases h; exact hs
  | succ fuel ih =>
    rw [runToBoundary] at h
    cases hu : tick false s with
    | next u =>
      have hw : u.wf := wf_tick hs hu
      simp only [hu] at h
      split at h
      · cases h; exact hw
      · exact ih hw h
    | fault r => simp [hu] at h
    | refused r => simp [hu] at h

/-- Settles O52, by the situation of the tick. -/
theorem tickKeepsTheStateWellFormed : Obligations.TickKeepsTheStateWellFormed :=
  fun _ _ _ => wf_tick

/-- Settles O51: at a boundary the fetched word's effect keeps it, elsewhere the ticks up to the next boundary do. -/
theorem stepKeepsTheStateWellFormed : Obligations.StepKeepsTheStateWellFormed := by
  intro s t hs h
  unfold step at h
  split at h
  · exact wf_runWord (s := s.latchFetch _) _ hs h
  · exact wf_runToBoundary hs h

/-! ## The retired pulse -/

theorem execUnknownOpcode_retired {w : Word} {s t : State} (h : execUnknownOpcode w s = .next t) : t.retired = true := by
  obtain ⟨-, he⟩ | ⟨-, he⟩ | ⟨-, he⟩ := execUnknownOpcode_cases s w <;> cases he.symm.trans h <;> rfl

@[simp] theorem commitRecord_retired (d : DecodedInstruction) (wb : Option Word) (s : State) :
    (commitRecord d wb s).retired = true := rfl

theorem latchedMemOp_of_record {s : State} {r : DecodedInstruction} (hr : decodeRecord s.inst = some r) :
    s.latchedMemOp = r.memOpEn := by
  simp [State.latchedMemOp, hr]

theorem latchedMemOp_of_unknown {s : State} (hr : decodeRecord s.inst = none) : s.latchedMemOp = false := by
  simp [State.latchedMemOp, hr]

/-- WRITE is only entered with a load or a store latched (R205). -/
theorem latchedMemOp_of_coherent_write {s : State} (hc : s.coherent) (hf : s.fsm = .write) : s.latchedMemOp = true := by
  simp only [State.coherent, hf] at hc
  exact hc.2.1

/-- The pulse is up after a tick exactly when the tick was a commit (R20). -/
theorem tickTo_retired_iff {s t : State} (hc : s.coherent) (h : TickTo s t) :
    t.retired = true ↔ (s.fsm = .execute ∧ s.latchedMemOp = false) ∨ (s.fsm = .write ∧ s.dPort.ack = true) := by
  cases h with
  | fetchWait hf _ | fetchLatch hf _ => simp [hf]
  | unknownOpcode hf hr h =>
    have hm := latchedMemOp_of_unknown hr
    have he : s.fsm = .execute := by
      cases hs : s.fsm with
      | fetch => exact absurd hs hf
      | execute => rfl
      | write => exact absurd (latchedMemOp_of_coherent_write hc hs) (by simp [hm])
    simp [execUnknownOpcode_retired h, he, hm]
  | executeMemOp hf hr hm => simp [hf, latchedMemOp_of_record hr, hm]
  | executeCommit hf hr hm => simp [hf, latchedMemOp_of_record hr, hm]
  | writeWait hf hr ha => simp [hf, ha]
  | writeCommit hf hr ha => simp [hf, ha]

/-- A tick that is no commit keeps what commits write (R204, R206). -/
theorem tickTo_frame_of_not_retired {s t : State} (h : TickTo s t) (ht : t.retired = false) :
    t.pc = s.pc ∧ t.regs = s.regs ∧ t.stores = s.stores := by
  cases h with
  | fetchWait | fetchLatch | executeMemOp | writeWait => exact ⟨rfl, rfl, rfl⟩
  | unknownOpcode _ _ h => simp [execUnknownOpcode_retired h] at ht
  | executeCommit | writeCommit => simp at ht

/-- Settles O42, by the situation of the tick. -/
theorem retiredPulsesOncePerCommit : Obligations.RetiredPulsesOncePerCommit := fun _ _ hc h =>
  ⟨tickTo_retired_iff hc (tickTo_of_tick h), tickTo_frame_of_not_retired (tickTo_of_tick h)⟩

end Sys2Proof.Machine

/-! ## What reaches memory -/

namespace Sys2Proof.Machine

/-- Only SW's commit writes a store. -/
theorem exec_sameBytes {i : Instr} {s t : State} (h : exec i s = .next t) (hs : i.record.memOpStore = false) :
    SameBytes s t := by
  cases i using instr_by_template with
  | reg i op rd rs1 b _ he | imm i op rd rs1 b _ he => rw [he] at h; cases h; exact fun _ _ => rfl
  | branch i c rs1 rs2 off _ he => rw [he] at h; cases h; exact fun _ _ => rfl
  | lui | auipc | jal | jalr | lw => cases h; exact fun _ _ => rfl
  | sw => cases hs

/-- Only LW and SW latch a word in the data port. -/
theorem exec_dPort {i : Instr} {s t : State} (h : exec i s = .next t) (hm : i.record.memOpEn = false) :
    t.dPort = s.dPort := by
  cases i using instr_by_template with
  | reg i op rd rs1 b _ he | imm i op rd rs1 b _ he => rw [he] at h; cases h; rfl
  | branch i c rs1 rs2 off _ he => rw [he] at h; cases h; rfl
  | lui | auipc | jal | jalr => cases h; rfl
  | lw | sw => cases hm

/-- Settles O29, by the templates of the instruction rules. -/
theorem onlyLoadsAndStoresTouchTheDataPort : Obligations.OnlyLoadsAndStoresTouchTheDataPort :=
  fun _ _ _ h => ⟨exec_sameBytes h, exec_dPort h⟩

/-! ### The index of an address -/

/-- R44: the index is a field of the address. -/
theorem storeIndex_eq_field (bits : Nat) (a : Word) : storeIndex bits a = (a.extractLsb' 2 bits).toNat := by
  rw [BitVec.extractLsb'_toNat, Nat.shiftRight_eq_div_pow]
  rfl

/-- An address without its low two bits is its word number above two zeros. -/
theorem clearLow_eq_append (a : Word) : a &&& ~~~(3 : Word) = a.extractLsb' 2 30 ++ 0#2 := by
  apply BitVec.eq_of_getLsbD_eq
  intro i hi
  simp only [BitVec.getLsbD_and, BitVec.getLsbD_append, BitVec.getLsbD_extractLsb']
  interval_cases i <;> simp

/-- R47: the low two bits take no part in the index. -/
theorem storeIndex_clearLow (bits : Nat) (a : Word) :
    storeIndex bits (a &&& ~~~(3 : Word)) = storeIndex bits a := by
  have h : (a &&& ~~~(3 : Word)).toNat / 4 = a.toNat / 4 := by
    have hfield : (a.extractLsb' 2 30).toNat = a.toNat / 4 := by
      rw [BitVec.extractLsb'_toNat, Nat.shiftRight_eq_div_pow]
      have := a.isLt
      omega
    rw [clearLow_eq_append, BitVec.toNat_append, hfield]
    simp [Nat.shiftLeft_eq]
  simp only [storeIndex, h]

/-- With 30 index bits the index is the whole word number (D7). -/
theorem storeIndex_thirty_inj (a b : Word) :
    storeIndex 30 a = storeIndex 30 b ↔ a &&& ~~~(3 : Word) = b &&& ~~~(3 : Word) := by
  constructor
  · intro h
    rw [storeIndex_eq_field, storeIndex_eq_field, BitVec.toNat_inj] at h
    rw [clearLow_eq_append, clearLow_eq_append, h]
  · intro h
    rw [← storeIndex_clearLow, h, storeIndex_clearLow]

section
variable (s : State)

theorem index_clearLow (a : Word) : s.index (a &&& ~~~(3 : Word)) = s.index a := storeIndex_clearLow _ a

theorem memRead_clearLow (p : PortId) (a : Word) : s.memRead p (a &&& ~~~(3 : Word)) = s.memRead p a :=
  congrArg (s.stores.wordAt p) (index_clearLow s a)

theorem memWrite_clearLow (p : PortId) (a v : Word) : s.memWrite p (a &&& ~~~(3 : Word)) v = s.memWrite p a v := by
  simp only [State.memWrite, index_clearLow]

end

/-- Settles O32: the index is a field above the low two bits, and a read, a write and a fetch go by the index. -/
theorem addressSelectsAWord : Obligations.AddressSelectsAWord :=
  ⟨fun bits a _ => storeIndex_eq_field bits a,
    fun s p a v => ⟨(memRead_clearLow s p a).symm, (memWrite_clearLow s p a v).symm, (memRead_clearLow s .instr a).symm⟩,
    storeIndex_thirty_inj⟩

/-! ### Words written and their bytes -/

/-- Settles O33, from the laws of a word write through the state. -/
theorem readAfterWriteOfAWholeWord : Obligations.ReadAfterWriteOfAWholeWord :=
  fun s p a b v => ⟨memRead_memWrite s p a b v, fun q c => byteAt_memWrite_out s p q b v c⟩

/-- What the instruction port reads after a word is written through the data port, under `unified`. -/
theorem memRead_instr_memWrite_data_unified {s : State} (ht : s.stores.topology = .unified) (a b v : Word) :
    (s.memWrite .data b v).memRead .instr a = if s.index a = s.index b then v else s.memRead .instr a := by
  cases hst : s.stores with
  | unified m =>
    simp only [State.memRead, State.memWrite, hst]
    exact unified_wordAt_putWord m .data .instr _ _ v
  | split => simp [hst, Stores.topology] at ht

/-- Under `split` it reads nothing of it. -/
theorem memRead_instr_memWrite_data_split {s : State} (ht : s.stores.topology = .split) (a b v : Word) :
    (s.memWrite .data b v).memRead .instr a = s.memRead .instr a := by
  cases hst : s.stores with
  | unified => simp [hst, Stores.topology] at ht
  | split => simp only [State.memRead, State.memWrite, hst]; rfl

/-- Settles O35: SW writes one word through the data port, and the fetch reads through the instruction port. -/
theorem storesAndInstructionFetch : Obligations.StoresAndInstructionFetch := by
  intro s t rs1 rs2 v h
  cases h
  exact ⟨fun ht => ⟨fun a => memRead_instr_memWrite_data_unified (s := s.latchData _) ht a _ _, rfl⟩,
    fun ht a => memRead_instr_memWrite_data_split (s := s.latchData _) ht a _ _⟩

theorem wordByte_wordOfBytes (b0 b1 b2 b3 : Byte) (j : Nat) (hj : j < 4) :
    wordByte (wordOfBytes b0 b1 b2 b3) j = [b0, b1, b2, b3].getD j 0 := by
  apply BitVec.eq_of_getLsbD_eq
  intro i hi
  simp only [wordByte, wordOfBytes, BitVec.getLsbD_extractLsb', BitVec.getLsbD_append]
  interval_cases j <;> interval_cases i <;> simp

/-- Settles O37: the bytes of the written word are the four of the stream, in its order. -/
theorem imageBytesAreLittleEndian : Obligations.ImageBytesAreLittleEndian :=
  fun b0 b1 b2 b3 _ => ⟨rfl, fun s p a j hj =>
    (stores_byteAt_putWord_in s.stores p (s.index a) j _ hj).trans (wordByte_wordOfBytes b0 b1 b2 b3 j hj)⟩

/-! ## The arbiter -/

theorem pending_iff (r : BusRequest) (p : PortRegs) :
    r.pending p = true ↔ r.cycle = true ∧ r.strobe = true ∧ p.ack = false := by
  simp [BusRequest.pending, and_assoc]

theorem commits_iff (r : BusRequest) (p : PortRegs) :
    r.commits p = true ↔ r.cycle = true ∧ r.strobe = true ∧ r.writeEnable = true ∧ p.ack = true := by
  simp [BusRequest.commits, and_assoc]

section
variable {n : Nat} (req : Fin n → BusRequest) (regs : Fin n → PortRegs)

theorem grant_eq_some_iff (p : Fin n) : grant req regs = some p ↔
    (req p).pending (regs p) = true ∧ ∀ q < p, (req q).pending (regs q) = false := by
  rw [grant, ← Fin.find?_eq_find?_finRange, Fin.find?_eq_some_iff]

theorem grant_eq_none_iff : grant req regs = none ↔ ∀ p, (req p).pending (regs p) = false := by
  rw [grant, ← Fin.find?_eq_find?_finRange, Fin.find?_eq_none_iff]

end

/-- Settles O38: the arbiter's search over the ports finds the first that requests. -/
theorem arbiterGrantsTheLowestRequester : Obligations.ArbiterGrantsTheLowestRequester := by
  intro n req regs
  simp only [← pending_iff, Bool.not_eq_true]
  exact ⟨grant_eq_some_iff req regs, grant_eq_none_iff req regs⟩

section
variable {n : Nat} (req : Fin n → BusRequest) (regs : Fin n → PortRegs) (bits : Nat) (init : Nat → Byte) (store : Memory)

/-- R50: the acknowledge follows the grant. -/
theorem arbiterPort_ack_iff (p : Fin n) :
    (arbiterPort bits init store req regs p).ack = true ↔ grant req regs = some p := by
  unfold arbiterPort
  split <;> simp [*]

/-- R51, D6: `rdata` of the granted port. -/
theorem arbiterPort_of_grant {p : Fin n} (h : grant req regs = some p) :
    arbiterPort bits init store req regs p = ⟨true, store.wordAt init (storeIndex bits (req p).address)⟩ := if_pos h

theorem arbiterPort_of_no_grant {p : Fin n} (h : grant req regs ≠ some p) :
    arbiterPort bits init store req regs p = ⟨false, (regs p).rdata⟩ := if_neg h

/-- R52: the one port that commits writes its word. -/
theorem arbiterStore_of_commits {p : Fin n} (hp : (req p).commits (regs p) = true)
    (hq : ∀ q, q ≠ p → (req q).commits (regs q) = false) :
    arbiterStore bits store req regs = store.putWord (storeIndex bits (req p).address) (req p).writeData := by
  have hfind : (List.finRange n).find? (fun q => (req q).commits (regs q)) = some p := by
    rw [← Fin.find?_eq_find?_finRange, Fin.find?_eq_some_iff]
    exact ⟨hp, fun q hlt => hq q (ne_of_lt hlt)⟩
  simp only [arbiterStore, hfind]

theorem arbiterStore_of_no_commit (h : ∀ p, (req p).commits (regs p) = false) :
    arbiterStore bits store req regs = store := by
  have hfind : (List.finRange n).find? (fun p => (req p).commits (regs p)) = none := by
    rw [← Fin.find?_eq_find?_finRange, Fin.find?_eq_none_iff]
    exact h
  simp only [arbiterStore, hfind]

end

/-- Settles O39: the ports go by the grant; the store goes by the port that commits, the only one with its acknowledge up. -/
theorem arbiterTickUpdatesItsState : Obligations.ArbiterTickUpdatesItsState := by
  intro n bits init store req regs
  have hack := arbiterPort_ack_iff req regs bits init store
  refine ⟨fun p => ⟨hack p, fun h => ?_, fun h => ?_⟩, fun p q hp hq => ?_, fun p hc hs hw ha hother k => ?_, fun h => ?_⟩
  · rw [arbiterPort_of_grant req regs bits init store h]
  · rw [arbiterPort_of_no_grant req regs bits init store h]
  · exact Option.some.inj (((hack p).mp hp).symm.trans ((hack q).mp hq))
  · have hp := (commits_iff (req p) (regs p)).mpr ⟨hc, hs, hw, ha⟩
    have hq : ∀ q, q ≠ p → (req q).commits (regs q) = false := fun q hne => by simp [BusRequest.commits, hother q hne]
    rw [arbiterStore_of_commits req regs bits store hp hq, wordAt_putWord]
  · simp only [← commits_iff, Bool.not_eq_true] at h
    exact arbiterStore_of_no_commit req regs bits store h

/-! ## Core and bus stay coherent -/

/-- With both acknowledges down, coherence asks only that WRITE has a load or store latched (R205). -/
theorem coherent_of_acks_down {s : State} (hi : s.iPort.ack = false) (hd : s.dPort.ack = false)
    (hw : s.fsm = .write → s.latchedMemOp = true) : s.coherent := by
  cases hf : s.fsm with
  | fetch | execute => simp [State.coherent, hf, hi, hd]
  | write => simp [State.coherent, hf, hi, hd, hw hf]

/-- FETCH with the fetched word in `rdata` (R202). -/
theorem coherent_of_fetch {s : State} (hf : s.fsm = .fetch) (hd : s.dPort.ack = false)
    (hw : s.iPort.rdata = s.fetchWord) : s.coherent := by
  simp [State.coherent, hf, hd, hw]

/-- WRITE with the addressed word in `rdata` (R206). -/
theorem coherent_of_write {s : State} (hf : s.fsm = .write) (hi : s.iPort.ack = false) (hm : s.latchedMemOp = true)
    (hw : s.dPort.rdata = s.memRead .data s.dRequest.address) : s.coherent := by
  simp [State.coherent, hf, hi, hm, hw]

/-- In each FSM state coherence keeps the acknowledge of one port at least down (R55). -/
theorem not_both_acks_of_coherent {s : State} (hc : s.coherent) : ¬(s.iPort.ack = true ∧ s.dPort.ack = true) := by
  rintro ⟨hi, hd⟩
  cases hf : s.fsm <;> simp [State.coherent, hf, hi, hd] at hc

/-- An unknown opcode retires without a memory transaction (R105, log entry 5). -/
theorem execUnknownOpcode_frame {w : Word} {s t : State} (h : execUnknownOpcode w s = .next t) :
    t.fsm = .fetch ∧ t.iPort = s.iPort ∧ t.dPort = s.dPort := by
  obtain ⟨-, he⟩ | ⟨-, he⟩ | ⟨-, he⟩ := execUnknownOpcode_cases s w <;> cases he.symm.trans h <;> exact ⟨rfl, rfl, rfl⟩

/-- A commit leaves the arbiter's registers to the bus. -/
theorem commitRecord_ports (d : DecodedInstruction) (wb : Option Word) (s : State) :
    (commitRecord d wb s).iPort = s.iPort ∧ (commitRecord d wb s).dPort = s.dPort := by
  cases h : d.rd <;> cases wb <;> simp [commitRecord, h]

/-- In WRITE the data port's address is the ALU's result (R208). -/
theorem dRequest_address_of_write {s : State} {r : DecodedInstruction} (hf : s.fsm = .write)
    (hr : decodeRecord s.inst = some r) : s.dRequest.address = (aluOut r s).1 := by
  simp [State.dRequest, hf, hr]

/-- A bus tick raises an acknowledge in the two waiting situations only, with the addressed word in `rdata`; every other
tick leaves both acknowledges down. -/
theorem coherent_of_tickTo {s t : State} (hc : s.coherent) (h : TickTo s t) : t.coherent := by
  cases h with
  | fetchWait hf _ => exact coherent_of_fetch hf rfl rfl
  | fetchLatch => exact coherent_of_acks_down rfl rfl nofun
  | unknownOpcode _ _ h =>
    obtain ⟨hf, hi, hd⟩ := execUnknownOpcode_frame h
    exact coherent_of_acks_down (by rw [hi]; rfl) (by rw [hd]; rfl) (by simp [hf])
  | executeMemOp _ hr hm => exact coherent_of_acks_down rfl rfl fun _ => (latchedMemOp_of_record hr).trans hm
  | executeCommit =>
    obtain ⟨hi, hd⟩ := commitRecord_ports _ _ s.quiet
    exact coherent_of_acks_down (by rw [hi]; rfl) (by rw [hd]; rfl) nofun
  | writeWait hf hr _ =>
    have hm := latchedMemOp_of_coherent_write hc hf
    exact coherent_of_write hf rfl hm
      (congrArg (s.memRead .data) (dRequest_address_of_write (s := { s with retired := false }) hf hr)).symm
  | writeCommit => exact coherent_of_acks_down rfl rfl nofun

theorem coherent_tick {rst : Bool} {s t : State} (hc : s.coherent) (h : tick rst s = .next t) : t.coherent := by
  cases rst with
  | true => cases h; exact coherent_of_acks_down rfl rfl nofun
  | false => exact coherent_of_tickTo hc (tickTo_of_tick h)

/-- Settles O47, by the situation of the tick; a coherent state has one acknowledge up at most. -/
theorem ticksKeepCoreAndBusCoherent : Obligations.TicksKeepCoreAndBusCoherent := fun _ _ _ hc h =>
  ⟨coherent_tick hc h, not_both_acks_of_coherent (coherent_tick hc h)⟩

end Sys2Proof.Machine

/-! ## The Decoder by class and selector -/

namespace Sys2Proof

/-! ### Codes and selectors name at most one thing (R91, R94, R95) -/

theorem ofCode_eq_some_iff {op : BitVec 7} {c : OpClass} : OpClass.ofCode op = some c ↔ op = c.code := by
  constructor
  · intro h
    simpa [eq_comm] using List.find?_some h
  · rintro rfl
    exact ofCode_code c

theorem ofFunct_eq_some_iff {f : BitVec 4} {o : AluOp} : AluOp.ofFunct f = some o ↔ f = o.funct := by
  constructor
  · intro h
    simpa [eq_comm] using List.find?_some h
  · rintro rfl
    exact ofFunct_funct o

theorem branch_ofCode_eq_some_iff {f : BitVec 3} {c : BranchCond} : BranchCond.ofCode f = some c ↔ f = c.code := by
  constructor
  · intro h
    simpa [eq_comm] using List.find?_some h
  · rintro rfl
    exact branch_ofCode_code c

theorem classOf_eq_some_iff {w : Word} {c : OpClass} : classOf w = some c ↔ opcodeOf w = c.code := ofCode_eq_some_iff

/-- The Decoder's record of a word of a class (R90). -/
theorem decodeRecord_of_class {w : Word} {c : OpClass} (hc : classOf w = some c) :
    decodeRecord w = some (recordOf c w) := by
  simp [decodeRecord, hc]

/-! ### The class of an instruction and its operands in a word -/

/-- The opcode class an instruction is encoded in (R91, R100). -/
def Instr.opClass : Instr → OpClass
  | .lui _ _ => .lui
  | .auipc _ _ => .auipc
  | .jal _ _ => .jal
  | .jalr _ _ _ => .jalr
  | .beq _ _ _ | .bne _ _ _ | .blt _ _ _ | .bge _ _ _ | .bltu _ _ _ | .bgeu _ _ _ => .branch
  | .lw _ _ _ => .load
  | .sw _ _ _ => .store
  | .addi _ _ _ | .slti _ _ _ | .sltiu _ _ _ | .xori _ _ _ | .ori _ _ _ | .andi _ _ _
  | .slli _ _ _ | .srli _ _ _ | .srai _ _ _ => .imm
  | .add _ _ _ | .sub _ _ _ | .sll _ _ _ | .slt _ _ _ | .sltu _ _ _ | .xor _ _ _
  | .srl _ _ _ | .sra _ _ _ | .or _ _ _ | .and _ _ _ => .reg

/-- The instruction of the same row whose operands are the fields of `w` (R82). -/
def Instr.withFieldsOf (w : Word) : Instr → Instr
  | .lui _ _     => .lui (rdOf w) (immUOf w)
  | .auipc _ _   => .auipc (rdOf w) (immUOf w)
  | .jal _ _     => .jal (rdOf w) (immJOf w)
  | .jalr _ _ _  => .jalr (rdOf w) (rs1Of w) (immIOf w)
  | .beq _ _ _   => .beq (rs1Of w) (rs2Of w) (immBOf w)
  | .bne _ _ _   => .bne (rs1Of w) (rs2Of w) (immBOf w)
  | .blt _ _ _   => .blt (rs1Of w) (rs2Of w) (immBOf w)
  | .bge _ _ _   => .bge (rs1Of w) (rs2Of w) (immBOf w)
  | .bltu _ _ _  => .bltu (rs1Of w) (rs2Of w) (immBOf w)
  | .bgeu _ _ _  => .bgeu (rs1Of w) (rs2Of w) (immBOf w)
  | .lw _ _ _    => .lw (rdOf w) (rs1Of w) (immIOf w)
  | .sw _ _ _    => .sw (rs1Of w) (rs2Of w) (immSOf w)
  | .addi _ _ _  => .addi (rdOf w) (rs1Of w) (immIOf w)
  | .slti _ _ _  => .slti (rdOf w) (rs1Of w) (immIOf w)
  | .sltiu _ _ _ => .sltiu (rdOf w) (rs1Of w) (immIOf w)
  | .xori _ _ _  => .xori (rdOf w) (rs1Of w) (immIOf w)
  | .ori _ _ _   => .ori (rdOf w) (rs1Of w) (immIOf w)
  | .andi _ _ _  => .andi (rdOf w) (rs1Of w) (immIOf w)
  | .slli _ _ _  => .slli (rdOf w) (rs1Of w) (shamtOf w)
  | .srli _ _ _  => .srli (rdOf w) (rs1Of w) (shamtOf w)
  | .srai _ _ _  => .srai (rdOf w) (rs1Of w) (shamtOf w)
  | .add _ _ _   => .add (rdOf w) (rs1Of w) (rs2Of w)
  | .sub _ _ _   => .sub (rdOf w) (rs1Of w) (rs2Of w)
  | .sll _ _ _   => .sll (rdOf w) (rs1Of w) (rs2Of w)
  | .slt _ _ _   => .slt (rdOf w) (rs1Of w) (rs2Of w)
  | .sltu _ _ _  => .sltu (rdOf w) (rs1Of w) (rs2Of w)
  | .xor _ _ _   => .xor (rdOf w) (rs1Of w) (rs2Of w)
  | .srl _ _ _   => .srl (rdOf w) (rs1Of w) (rs2Of w)
  | .sra _ _ _   => .sra (rdOf w) (rs1Of w) (rs2Of w)
  | .or _ _ _    => .or (rdOf w) (rs1Of w) (rs2Of w)
  | .and _ _ _   => .and (rdOf w) (rs1Of w) (rs2Of w)

@[simp] theorem row_withFieldsOf (w : Word) (i : Instr) : (i.withFieldsOf w).row = i.row := by cases i <;> rfl

/-- The Decoder selects the row of `i` for `w`: the class, and in it the selector `funct` (R91, R93). -/
def Selects (w : Word) (i : Instr) : Prop := classOf w = some i.opClass ∧ functOf i.opClass w = i.record.funct

theorem functOf_branch_iff {w : Word} {f : BitVec 3} : functOf .branch w = 0#1 ++ f ↔ funct3Of w = f := by
  simp only [functOf, selectorAlt]
  generalize funct3Of w = g
  revert f g
  decide

theorem functOf_reg_iff {w : Word} {o : AluOp} :
    functOf .reg w = o.funct ↔ altOf w = o.alt ∧ funct3Of w = o.funct3 := by
  simp only [functOf, selectorAlt]
  generalize altOf w = a
  generalize funct3Of w = f
  revert f a
  cases o <;> decide

/-- Class IMM examines the alt bit of the shifts only (R93). -/
theorem functOf_imm_iff {w : Word} {o : AluOp} (ho : o ≠ .sub) : functOf .imm w = o.funct ↔
    (isShiftFunct3 o.funct3 = true → altOf w = o.alt) ∧ funct3Of w = o.funct3 := by
  simp only [functOf, selectorAlt]
  generalize altOf w = a
  generalize funct3Of w = f
  revert f a ho
  cases o <;> decide

/-- The word of a selected row is read as the instruction with the word's fields. -/
theorem decode_of_selects {w : Word} {i : Instr} (h : Selects w i) : decode w = .instr (i.withFieldsOf w) := by
  obtain ⟨hc, hf⟩ := h
  cases i with
  | lui | auipc | jal | jalr | lw | sw => simp only [decode, hc, Instr.opClass, Instr.withFieldsOf]
  | beq | bne | blt | bge | bltu | bgeu =>
    simp only [Instr.opClass, Instr.record, recordBranch, functOf_branch_iff] at hc hf
    simp only [decode, hc, Instr.withFieldsOf, decodeBranch, hf, branch_ofCode_code]
  | addi | slti | sltiu | xori | ori | andi | slli | srli | srai =>
    simp only [Instr.opClass, Instr.record, recordImm] at hc hf
    simp only [decode, hc, Instr.withFieldsOf, decodeImm, hf, ofFunct_funct]
  | add | sub | sll | slt | sltu | xor | srl | sra | or | and =>
    simp only [Instr.opClass, Instr.record, recordReg] at hc hf
    simp only [decode, hc, Instr.withFieldsOf, decodeReg, hf, ofFunct_funct]

/-- What the Decoder makes of a word, by class and selector (R100 to R105): `Reads w d` says that `w` is read as `d`. -/
inductive Reads (w : Word) : Decoded → Prop
  | instr {i : Instr} (hs : Selects w i) (hf : i.withFieldsOf w = i) : Reads w (.instr i)
  | reservedAlu {c : OpClass} (hc : classOf w = some c) (hreg : c = .reg ∨ c = .imm)
      (hf : AluOp.ofFunct (functOf c w) = none) : Reads w (.reservedAlu (rdOf w) (functOf c w))
  | reservedBranch (hc : classOf w = some .branch) (hf : BranchCond.ofCode (funct3Of w) = none) :
      Reads w (.reservedBranch (immBOf w))
  | unknownOpcode (hc : classOf w = none) : Reads w (.unknownOpcode (opcodeOf w))

theorem reads_decode (w : Word) : Reads w (decode w) := by
  unfold decode
  cases hc : classOf w with
  | none => exact .unknownOpcode hc
  | some c =>
    cases c with
    | lui | auipc | jal | jalr | load | store => exact .instr ⟨hc, rfl⟩ rfl
    | branch =>
      simp only [decodeBranch]
      cases ho : BranchCond.ofCode (funct3Of w) with
      | none => exact .reservedBranch hc ho
      | some b =>
        have hf := functOf_branch_iff.mpr (branch_ofCode_eq_some_iff.mp ho)
        cases b <;> exact .instr ⟨hc, hf⟩ rfl
    | imm =>
      simp only [decodeImm]
      cases ho : AluOp.ofFunct (functOf .imm w) with
      | none => exact .reservedAlu hc (.inr rfl) ho
      | some o =>
        have hf := ofFunct_eq_some_iff.mp ho
        obtain ⟨hsub, -⟩ := Machine.functOf_imm w o ho
        cases o with
        | sub => exact absurd rfl hsub
        | add | sll | slt | sltu | xor | srl | sra | or | and => exact .instr ⟨hc, hf⟩ rfl
    | reg =>
      simp only [decodeReg]
      cases ho : AluOp.ofFunct (functOf .reg w) with
      | none => exact .reservedAlu hc (.inl rfl) ho
      | some o =>
        have hf := ofFunct_eq_some_iff.mp ho
        cases o <;> exact .instr ⟨hc, hf⟩ rfl

theorem selects_of_decode {w : Word} {i : Instr} (h : decode w = .instr i) : Selects w i := by
  have hr := reads_decode w
  rw [h] at hr
  cases hr with
  | instr hs _ => exact hs

/-- The record of a selected row's word is the instruction's. -/
theorem decodeRecord_of_selects {w : Word} {i : Instr} (h : Selects w i) :
    decodeRecord w = some (i.withFieldsOf w).record := by
  obtain ⟨hc, hf⟩ := h
  rw [decodeRecord_of_class hc]
  cases i with
  | lui | auipc | jal | jalr | lw | sw => rfl
  | beq | bne | blt | bge | bltu | bgeu | add | sub | sll | slt | sltu | xor | srl | sra | or | and =>
    simp only [Instr.opClass, Instr.record, recordBranch, recordReg] at hf
    simp [recordOf, Instr.opClass, immOf, hf, Instr.withFieldsOf, Instr.record, recordBranch, recordReg, OpClass.itype,
      OpClass.rs1En, OpClass.rs2En, OpClass.rdEn]
  | addi | slti | sltiu | xori | ori | andi | slli | srli | srai =>
    simp only [Instr.opClass, Instr.record, recordImm] at hf
    obtain ⟨-, hs⟩ := Machine.functOf_imm _ _ (ofFunct_eq_some_iff.mpr hf)
    simp [recordOf, Instr.opClass, immOf, hs, hf, Instr.withFieldsOf, Instr.record, recordImm, OpClass.itype,
      OpClass.rs1En, OpClass.rs2En, OpClass.rdEn]

/-! ### The fields of a canonical word -/

theorem selects_encode (i : Instr) : Selects (encode i) i := by
  cases i with
  | lui | auipc | jal | jalr | lw | sw => simp [Selects, classOf, encode, Instr.opClass, functOf, Instr.record]
  | beq rs1 rs2 off | bne rs1 rs2 off | blt rs1 rs2 off | bge rs1 rs2 off | bltu rs1 rs2 off | bgeu rs1 rs2 off =>
    obtain ⟨hc, hf⟩ := class_encodeBranch _ rs1 rs2 off
    exact ⟨hc, functOf_branch_iff.mpr hf⟩
  | addi rd rs1 imm | slti rd rs1 imm | sltiu rd rs1 imm | xori rd rs1 imm | ori rd rs1 imm | andi rd rs1 imm =>
    refine And.imp_right And.left (class_encodeImm _ rd rs1 imm ?_ ?_) <;> rfl
  | slli rd rs1 sh | srli rd rs1 sh | srai rd rs1 sh =>
    refine And.imp_right And.left (class_encodeShift _ rd rs1 sh ?_); rfl
  | add rd rs1 rs2 | sub rd rs1 rs2 | sll rd rs1 rs2 | slt rd rs1 rs2 | sltu rd rs1 rs2 | xor rd rs1 rs2
  | srl rd rs1 rs2 | sra rd rs1 rs2 | or rd rs1 rs2 | and rd rs1 rs2 => exact class_encodeReg _ rd rs1 rs2

theorem withFieldsOf_encode {i : Instr} (hwf : i.wellFormed = true) : i.withFieldsOf (encode i) = i := by
  cases i with
  | jal => simp [Instr.withFieldsOf, encode, immJOf_formatJ _ _ _ hwf]
  | beq | bne | blt | bge | bltu | bgeu => simp [Instr.withFieldsOf, encode, encodeBranch, immBOf_formatB _ _ _ _ _ hwf]
  | lui | auipc | jalr | lw | sw => simp [Instr.withFieldsOf, encode]
  | addi | slti | sltiu | xori | ori | andi => simp [Instr.withFieldsOf, encode, encodeImm]
  | slli | srli | srai => simp [Instr.withFieldsOf, encode, encodeShift]
  | add | sub | sll | slt | sltu | xor | srl | sra | or | and => simp [Instr.withFieldsOf, encode, encodeReg]

/-- Settles O2: a canonical word selects the row of its instruction, and its fields are the instruction's operands. -/
theorem decodeOfEncodeIsTheInstruction : Obligations.DecodeOfEncodeIsTheInstruction := by
  intro i hwf
  have hdecode := decode_of_selects (selects_encode i)
  have hrecord := decodeRecord_of_selects (selects_encode i)
  rw [withFieldsOf_encode hwf] at hdecode hrecord
  exact ⟨hdecode, hrecord⟩

/-! ### Immediates bit by bit -/

section
variable (w : Word)

theorem immIOf_bits : ∀ k < 12, (immIOf w).getLsbD k = w.getLsbD (20 + k) := by
  intro k hk
  simp [immIOf, hk]

theorem shamtOf_bits : ∀ k < 5, (shamtOf w).getLsbD k = w.getLsbD (20 + k) := by
  intro k hk
  simp [shamtOf, hk]

/-- Where each bit of the S immediate lies (R84). -/
theorem immSOf_bits : (∀ k < 5, (immSOf w).getLsbD k = w.getLsbD (7 + k)) ∧
    ∀ k < 7, (immSOf w).getLsbD (5 + k) = w.getLsbD (25 + k) := by
  simp only [immSOf, BitVec.getLsbD_append, BitVec.getLsbD_extractLsb']
  constructor <;> intro k hk <;> simp [hk]

/-- Where each bit of the B immediate lies (R85). -/
theorem immBOf_bits : (immBOf w).getLsbD 0 = false ∧ (∀ k < 4, (immBOf w).getLsbD (1 + k) = w.getLsbD (8 + k)) ∧
    (∀ k < 6, (immBOf w).getLsbD (5 + k) = w.getLsbD (25 + k)) ∧ (immBOf w).getLsbD 11 = w.getLsbD 7 ∧
    (immBOf w).getLsbD 12 = w.getLsbD 31 := by
  simp only [immBOf, BitVec.getLsbD_append, BitVec.getLsbD_extractLsb']
  refine ⟨rfl, fun k hk => ?_, fun k hk => ?_, by simp, by simp⟩ <;> interval_cases k <;> simp

/-- Where each bit of the J immediate lies (R87). -/
theorem immJOf_bits : (immJOf w).getLsbD 0 = false ∧ (∀ k < 10, (immJOf w).getLsbD (1 + k) = w.getLsbD (21 + k)) ∧
    (immJOf w).getLsbD 11 = w.getLsbD 20 ∧ (∀ k < 8, (immJOf w).getLsbD (12 + k) = w.getLsbD (12 + k)) ∧
    (immJOf w).getLsbD 20 = w.getLsbD 31 := by
  simp only [immJOf, BitVec.getLsbD_append, BitVec.getLsbD_extractLsb']
  refine ⟨rfl, fun k hk => ?_, by simp, fun k hk => ?_, by simp⟩ <;> interval_cases k <;> simp

theorem upper20_immUOf : upper20 (immUOf w) = w &&& 0xFFFFF000 := by
  apply BitVec.eq_of_getLsbD_eq
  intro k hk
  simp only [upper20, immUOf, BitVec.getLsbD_append, BitVec.getLsbD_extractLsb', BitVec.getLsbD_and]
  interval_cases k <;> simp

/-- Where each bit of the U immediate lies (R86). -/
theorem upper20_bits (imm20 : BitVec 20) : (∀ k < 12, (upper20 imm20).getLsbD k = false) ∧
    ∀ k < 20, (upper20 imm20).getLsbD (12 + k) = imm20.getLsbD k := by
  simp only [upper20, BitVec.getLsbD_append]
  constructor <;> intro k hk <;> simp [hk]

end

/-- A sign-extended field has the field's value (R83 to R85, R87). -/
theorem toInt_sext12 (imm : BitVec 12) : (sext12 imm).toInt = imm.toInt := BitVec.toInt_signExtend_of_le (by decide)
theorem toInt_sext13 (imm : BitVec 13) : (sext13 imm).toInt = imm.toInt := BitVec.toInt_signExtend_of_le (by decide)
theorem toInt_sext21 (imm : BitVec 21) : (sext21 imm).toInt = imm.toInt := BitVec.toInt_signExtend_of_le (by decide)

/-- The range of a two's complement field of `n + 2` bits whose bit 0 is 0. -/
theorem even_toInt_bounds {n : Nat} (v : BitVec (n + 2)) (h : v.getLsbD 0 = false) :
    -2 ^ (n + 1) ≤ v.toInt ∧ v.toInt ≤ 2 ^ (n + 1) - 2 := by
  have hlow : -2 ^ (n + 1) ≤ v.toInt := BitVec.le_toInt v
  have hhigh : v.toInt < 2 ^ (n + 1) := BitVec.toInt_lt
  have heven : v.toNat % 2 = 0 := by
    have h0 : v.toNat.testBit 0 = false := h
    simpa using h0
  have hv := BitVec.toInt_eq_toNat_cond v
  simp only [pow_succ] at *
  push_cast at *
  split at hv <;> omega

/-- Settles O5: the bits are those of each immediate's rule; the values are the sign-extended fields', and bit 0 of
`imm_B` and `imm_J` makes their greatest value even. -/
theorem immediatesComeFromTheirBits : Obligations.ImmediatesComeFromTheirBits := by
  intro w
  obtain ⟨hs0, hs5⟩ := immSOf_bits w
  obtain ⟨hb0, hb1, hb5, hb11, hb12⟩ := immBOf_bits w
  obtain ⟨hu0, hu12⟩ := upper20_bits (immUOf w)
  obtain ⟨hj0, hj1, hj11, hj12, hj20⟩ := immJOf_bits w
  obtain ⟨hbl, hbh⟩ := even_toInt_bounds (immBOf w) hb0
  obtain ⟨hjl, hjh⟩ := even_toInt_bounds (immJOf w) hj0
  refine ⟨⟨immIOf_bits w, toInt_sext12 _, BitVec.le_toInt _, Int.le_of_lt_add_one BitVec.toInt_lt⟩,
    ⟨hs0, hs5, toInt_sext12 _, BitVec.le_toInt _, Int.le_of_lt_add_one BitVec.toInt_lt⟩,
    ⟨hb0, hb1, hb5, hb11, hb12, toInt_sext13 _, hbl, hbh⟩,
    ⟨hu0, fun k hk => ?_, upper20_immUOf w⟩,
    ⟨hj0, hj1, hj11, hj12, hj20, toInt_sext21 _, hjl, hjh⟩, shamtOf_bits w, ?_⟩
  · rw [hu12 k hk]
    simp [immUOf, hk]
  · exact BitVec.toNat_setWidth_of_le (by decide)

/-! ### Masks and fields -/

/-- The mask of the field of `n` bits from bit `lo`. -/
def fieldMask (lo n : Nat) : Word := (BitVec.allOnes n).setWidth 32 <<< lo

theorem getLsbD_fieldMask (lo n k : Nat) (h : lo + n ≤ 32) :
    (fieldMask lo n).getLsbD k = decide (lo ≤ k ∧ k < lo + n) := by
  rw [Bool.eq_iff_iff]
  simp only [fieldMask, BitVec.getLsbD_shiftLeft, BitVec.getLsbD_setWidth, BitVec.getLsbD_allOnes, Bool.and_eq_true,
    Bool.not_eq_true', decide_eq_true_eq, decide_eq_false_iff_not]
  omega

/-- Two words agree under a mask when they agree on each of its bits. -/
theorem and_eq_and_iff {w m mask : Word} :
    w &&& mask = m &&& mask ↔ ∀ k, mask.getLsbD k = true → w.getLsbD k = m.getLsbD k := by
  constructor
  · intro h k hk
    simpa [hk] using congrArg (fun v : Word => v.getLsbD k) h
  · intro h
    apply BitVec.eq_of_getLsbD_eq
    intro k _
    cases hk : mask.getLsbD k <;> simp [hk, h]

theorem and_or_eq_iff {w m a b : Word} : w &&& (a ||| b) = m &&& (a ||| b) ↔ w &&& a = m &&& a ∧ w &&& b = m &&& b := by
  simp only [and_eq_and_iff, BitVec.getLsbD_or, Bool.or_eq_true, or_imp, forall_and]

theorem and_fieldMask_iff {w m : Word} {lo n : Nat} (h : lo + n ≤ 32) :
    w &&& fieldMask lo n = m &&& fieldMask lo n ↔ w.extractLsb' lo n = m.extractLsb' lo n := by
  simp only [and_eq_and_iff, getLsbD_fieldMask lo n _ h, decide_eq_true_eq]
  constructor
  · intro hm
    refine field_eq fun k hk => ?_
    simp [hk, hm (lo + k) (by omega)]
  · intro hf k hk
    have hb := congrArg (fun v : BitVec n => v.getLsbD (k - lo)) hf
    simpa [show k - lo < n by omega, show lo + (k - lo) = k by omega] using hb

/-- `mask` 0x7F: the opcode. -/
theorem mask_opcode_iff {w m : Word} : w &&& 0x0000007F = m &&& 0x0000007F ↔ opcodeOf w = opcodeOf m :=
  and_fieldMask_iff (lo := 0) (n := 7) (by decide)

/-- `mask` 0x707F: the opcode and funct3. -/
theorem mask_funct3_iff {w m : Word} :
    w &&& 0x0000707F = m &&& 0x0000707F ↔ opcodeOf w = opcodeOf m ∧ funct3Of w = funct3Of m := by
  rw [show (0x0000707F : Word) = fieldMask 0 7 ||| fieldMask 12 3 by decide, and_or_eq_iff,
    and_fieldMask_iff (by decide), and_fieldMask_iff (by decide)]
  rfl

/-- `hwMask` 0x4000707F: the opcode, funct3 and the alt bit. -/
theorem mask_alt_iff {w m : Word} : w &&& 0x4000707F = m &&& 0x4000707F ↔
    (opcodeOf w = opcodeOf m ∧ funct3Of w = funct3Of m) ∧ altOf w = altOf m := by
  rw [show (0x4000707F : Word) = 0x0000707F ||| fieldMask 30 1 by decide, and_or_eq_iff, mask_funct3_iff,
    and_fieldMask_iff (by decide)]
  rfl

/-- `mask` 0xFE00707F: the opcode, funct3 and funct7. -/
theorem mask_funct7_iff {w m : Word} : w &&& 0xFE00707F = m &&& 0xFE00707F ↔
    (opcodeOf w = opcodeOf m ∧ funct3Of w = funct3Of m) ∧ w.extractLsb' 25 7 = m.extractLsb' 25 7 := by
  rw [show (0xFE00707F : Word) = 0x0000707F ||| fieldMask 25 7 by decide, and_or_eq_iff, mask_funct3_iff,
    and_fieldMask_iff (by decide)]

/-- The bits the hardware examines decide class and selector (R100's column "hw examines", R101). -/
theorem hwMask_iff_selects (w : Word) (i : Instr) :
    w &&& i.row.hwMask = i.row.matched &&& i.row.hwMask ↔ Selects w i := by
  unfold Selects
  rw [classOf_eq_some_iff]
  cases i with
  | lui | auipc | jal | jalr | lw | sw =>
    simp only [Instr.row, Instr.opClass, Instr.record, functOf, and_true]
    exact mask_opcode_iff
  | beq | bne | blt | bge | bltu | bgeu =>
    simp only [Instr.row, Instr.opClass, Instr.record, recordBranch, functOf_branch_iff]
    exact mask_funct3_iff
  | addi | slti | sltiu | xori | ori | andi =>
    simp only [Instr.row, Instr.opClass, Instr.record, recordImm]
    rw [functOf_imm_iff (by decide), and_iff_right fun hs => absurd hs (by decide)]
    exact mask_funct3_iff
  | slli | srli | srai =>
    simp only [Instr.row, Instr.opClass, Instr.record, recordImm]
    rw [functOf_imm_iff (by decide), forall_prop_of_true (by decide), and_comm (a := altOf w = _), ← and_assoc]
    exact mask_alt_iff
  | add | sub | sll | slt | sltu | xor | srl | sra | or | and =>
    simp only [Instr.row, Instr.opClass, Instr.record, recordReg]
    rw [functOf_reg_iff, and_comm (a := altOf w = _), ← and_assoc]
    exact mask_alt_iff

/-- A row is the row of one of the instructions. -/
theorem exists_row_of_mem {row : OpcodeRow} (h : row ∈ opcodeTable) : ∃ i : Instr, i.row = row := by
  obtain ⟨i, -, hi⟩ := List.mem_map.mp h
  exact ⟨i, hi⟩

/-- Settles O4: the examined bits select a row, and decoding reads the selected row with the word's fields. -/
theorem hardwareMaskDecidesTheRow : Obligations.HardwareMaskDecidesTheRow := by
  intro row hrow w
  constructor
  · obtain ⟨i, rfl⟩ := exists_row_of_mem hrow
    intro h
    exact ⟨i.withFieldsOf w, decode_of_selects ((hwMask_iff_selects w i).mp h), row_withFieldsOf w i⟩
  · rintro ⟨i, hi, rfl⟩
    exact (hwMask_iff_selects w i).mpr (selects_of_decode hi)

/-! ### Canonical words -/

theorem canonical_matches_row (i : Instr) : encode i &&& i.row.mask = i.row.matched := by
  cases i with
  | lui => exact Laws.TableRow.lui _ _
  | auipc => exact Laws.TableRow.auipc _ _
  | jal => exact Laws.TableRow.jal _ _
  | jalr => exact Laws.TableRow.jalr _ _ _
  | beq => exact Laws.TableRow.beq _ _ _
  | bne => exact Laws.TableRow.bne _ _ _
  | blt => exact Laws.TableRow.blt _ _ _
  | bge => exact Laws.TableRow.bge _ _ _
  | bltu => exact Laws.TableRow.bltu _ _ _
  | bgeu => exact Laws.TableRow.bgeu _ _ _
  | lw => exact Laws.TableRow.lw _ _ _
  | sw => exact Laws.TableRow.sw _ _ _
  | addi => exact Laws.TableRow.addi _ _ _
  | slti => exact Laws.TableRow.slti _ _ _
  | sltiu => exact Laws.TableRow.sltiu _ _ _
  | xori => exact Laws.TableRow.xori _ _ _
  | ori => exact Laws.TableRow.ori _ _ _
  | andi => exact Laws.TableRow.andi _ _ _
  | slli => exact Laws.TableRow.slli _ _ _
  | srli => exact Laws.TableRow.srli _ _ _
  | srai => exact Laws.TableRow.srai _ _ _
  | add => exact Laws.TableRow.add _ _ _
  | sub => exact Laws.TableRow.sub _ _ _
  | sll => exact Laws.TableRow.sll _ _ _
  | slt => exact Laws.TableRow.slt _ _ _
  | sltu => exact Laws.TableRow.sltu _ _ _
  | xor => exact Laws.TableRow.xor _ _ _
  | srl => exact Laws.TableRow.srl _ _ _
  | sra => exact Laws.TableRow.sra _ _ _
  | or => exact Laws.TableRow.or _ _ _
  | and => exact Laws.TableRow.and _ _ _

theorem matched_and_mask (i : Instr) : i.row.matched &&& i.row.mask = i.row.matched := by
  rw [← canonical_matches_row i, BitVec.and_assoc, BitVec.and_self]

/-! A word is the format of its own fields (R82). -/

@[simp] theorem regBits_toFin (v : BitVec 5) : regBits v.toFin = v := rfl

theorem formatR_fields {w : Word} {f7 : BitVec 7} {f3 : BitVec 3} {op : BitVec 7}
    (h : (opcodeOf w = op ∧ funct3Of w = f3) ∧ w.extractLsb' 25 7 = f7) :
    formatR f7 (rs2Of w) (rs1Of w) f3 (rdOf w) op = w := by
  obtain ⟨⟨rfl, rfl⟩, rfl⟩ := h
  apply BitVec.eq_of_getLsbD_eq
  intro k hk
  simp only [formatR, rs2Of, rs1Of, rdOf, funct3Of, opcodeOf, regBits_toFin, BitVec.getLsbD_append]
  interval_cases k <;> simp

theorem formatShift_fields {w : Word} {f7 : BitVec 7} {f3 : BitVec 3} {op : BitVec 7}
    (h : (opcodeOf w = op ∧ funct3Of w = f3) ∧ w.extractLsb' 25 7 = f7) :
    formatShift f7 (shamtOf w) (rs1Of w) f3 (rdOf w) op = w := formatR_fields h

theorem formatI_fields {w : Word} {f3 : BitVec 3} {op : BitVec 7} (h : opcodeOf w = op ∧ funct3Of w = f3) :
    formatI (immIOf w) (rs1Of w) f3 (rdOf w) op = w := by
  obtain ⟨rfl, rfl⟩ := h
  apply BitVec.eq_of_getLsbD_eq
  intro k hk
  simp only [formatI, immIOf, rs1Of, rdOf, funct3Of, opcodeOf, regBits_toFin, BitVec.getLsbD_append]
  interval_cases k <;> simp

theorem formatS_fields {w : Word} {f3 : BitVec 3} {op : BitVec 7} (h : opcodeOf w = op ∧ funct3Of w = f3) :
    formatS (immSOf w) (rs2Of w) (rs1Of w) f3 op = w := by
  obtain ⟨rfl, rfl⟩ := h
  apply BitVec.eq_of_getLsbD_eq
  intro k hk
  simp only [formatS, immSOf, rs2Of, rs1Of, funct3Of, opcodeOf, regBits_toFin, BitVec.getLsbD_append,
    BitVec.getLsbD_extractLsb']
  interval_cases k <;> simp

theorem formatB_fields {w : Word} {f3 : BitVec 3} {op : BitVec 7} (h : opcodeOf w = op ∧ funct3Of w = f3) :
    formatB (immBOf w) (rs2Of w) (rs1Of w) f3 op = w := by
  obtain ⟨rfl, rfl⟩ := h
  apply BitVec.eq_of_getLsbD_eq
  intro k hk
  simp only [formatB, immBOf, rs2Of, rs1Of, funct3Of, opcodeOf, regBits_toFin, BitVec.getLsbD_append,
    BitVec.getLsbD_extractLsb']
  interval_cases k <;> simp

theorem formatU_fields {w : Word} {op : BitVec 7} (h : opcodeOf w = op) : formatU (immUOf w) (rdOf w) op = w := by
  subst h
  apply BitVec.eq_of_getLsbD_eq
  intro k hk
  simp only [formatU, immUOf, rdOf, opcodeOf, regBits_toFin, BitVec.getLsbD_append]
  interval_cases k <;> simp

theorem formatJ_fields {w : Word} {op : BitVec 7} (h : opcodeOf w = op) : formatJ (immJOf w) (rdOf w) op = w := by
  subst h
  apply BitVec.eq_of_getLsbD_eq
  intro k hk
  simp only [formatJ, immJOf, rdOf, opcodeOf, regBits_toFin, BitVec.getLsbD_append, BitVec.getLsbD_extractLsb']
  interval_cases k <;> simp

/-- A word that matches a row on its mask is the canonical word of the instruction read from it. -/
theorem encode_withFieldsOf {w : Word} {i : Instr} (h : w &&& i.row.mask = i.row.matched) :
    encode (i.withFieldsOf w) = w := by
  rw [← matched_and_mask] at h
  cases i <;> simp only [Instr.row] at h
  case lui | auipc => exact formatU_fields (mask_opcode_iff.mp h)
  case jal => exact formatJ_fields (mask_opcode_iff.mp h)
  case jalr | lw | addi | slti | sltiu | xori | ori | andi => exact formatI_fields (mask_funct3_iff.mp h)
  case sw => exact formatS_fields (mask_funct3_iff.mp h)
  case beq | bne | blt | bge | bltu | bgeu => exact formatB_fields (mask_funct3_iff.mp h)
  case slli | srli | srai => exact formatShift_fields (mask_funct7_iff.mp h)
  case add | sub | sll | slt | sltu | xor | srl | sra | or | and => exact formatR_fields (mask_funct7_iff.mp h)

theorem branchOffsetOk_immBOf (w : Word) : branchOffsetOk (immBOf w) = true := by
  rw [branchOffsetOk, (immBOf_bits w).1]
  rfl

theorem jumpOffsetOk_immJOf (w : Word) : jumpOffsetOk (immJOf w) = true := by
  rw [jumpOffsetOk, (immJOf_bits w).1]
  rfl

/-- The offsets a word holds are even (R85, R87). -/
theorem wellFormed_withFieldsOf (w : Word) (i : Instr) : (i.withFieldsOf w).wellFormed = true := by
  cases i with
  | beq | bne | blt | bge | bltu | bgeu => exact branchOffsetOk_immBOf w
  | jal => exact jumpOffsetOk_immJOf w
  | _ => rfl

/-- Settles O3: a match gives back the word from its own fields; the rows' own numbers keep them apart. -/
theorem tableRowsAreTheCanonicalWords : Obligations.TableRowsAreTheCanonicalWords := by
  refine ⟨fun row hrow w => ⟨fun h => ?_, ?_⟩, by decide, by decide⟩
  · obtain ⟨i, rfl⟩ := exists_row_of_mem hrow
    exact ⟨i.withFieldsOf w, wellFormed_withFieldsOf w i, row_withFieldsOf w i, encode_withFieldsOf h⟩
  · rintro ⟨i, -, rfl, rfl⟩
    exact canonical_matches_row i

end Sys2Proof

namespace Sys2Proof

/-! ### Records by opcode value -/

theorem classOf_of_code {w : Word} {c : OpClass} (h : w.extractLsb' 0 7 = c.code) : classOf w = some c :=
  classOf_eq_some_iff.mpr h

theorem isShiftFunct3_iff {f : BitVec 3} : isShiftFunct3 f = true ↔ f = 0b001#3 ∨ f = 0b101#3 := by
  simp [isShiftFunct3]

/-- A word of class IMM whose funct3 is a shift's: alt is `inst[30]`, the immediate the shift amount (R88, R93, D20). -/
theorem recordOf_imm_shift {w : Word} (hs : isShiftFunct3 (funct3Of w) = true) : recordOf .imm w =
    ⟨.alu, some (rs1Of w), none, some (rdOf w), altOf w ++ funct3Of w, some (zext5 (shamtOf w)), false, false⟩ := by
  simp [recordOf, functOf, selectorAlt, immOf, hs, OpClass.itype, OpClass.rs1En, OpClass.rs2En, OpClass.rdEn]

/-- Any other word of class IMM: alt is 0, the immediate is `imm_I` (R89, R93). -/
theorem recordOf_imm_other {w : Word} (hs : isShiftFunct3 (funct3Of w) = false) : recordOf .imm w =
    ⟨.alu, some (rs1Of w), none, some (rdOf w), 0#1 ++ funct3Of w, some (sext12 (immIOf w)), false, false⟩ := by
  simp [recordOf, functOf, selectorAlt, immOf, hs, OpClass.itype, OpClass.rs1En, OpClass.rs2En, OpClass.rdEn]

/-- Settles O6: the record of the class the opcode value names; class IMM by funct3. -/
theorem recordOfEachOpcodeClass : Obligations.RecordOfEachOpcodeClass := by
  intro w f3 rd rs1 rs2
  have record (c : OpClass) (h : w.extractLsb' 0 7 = c.code) : decodeRecord w = some (recordOf c w) :=
    decodeRecord_of_class (classOf_of_code h)
  refine ⟨record .lui, record .auipc, record .jal, record .jalr, record .branch, record .load, record .store,
    fun h => ⟨fun hs => ?_, fun h1 h5 => ?_⟩, record .reg⟩
  · rw [record .imm h, recordOf_imm_shift (isShiftFunct3_iff.mpr hs)]
    rfl
  · rw [record .imm h, recordOf_imm_other (Bool.eq_false_iff.mpr fun hs => (isShiftFunct3_iff.mp hs).elim h1 h5)]
    rfl

/-! ### Loads and stores -/

theorem runWord_of_instr {w : Word} {i : Instr} (h : decode w = .instr i) (s : Machine.State) :
    Machine.runWord w s = Machine.exec i s := by
  simp only [Machine.runWord, h]

/-- Settles O8: the Decoder takes the two classes by the opcode alone. -/
theorem loadsAndStoresIgnoreFunct3 : Obligations.LoadsAndStoresIgnoreFunct3 := by
  refine fun w s => ⟨fun h => ?_, fun h => ?_⟩
  · have hd : decode w = .instr (.lw (rdOf w) (rs1Of w) (immIOf w)) :=
      decode_of_selects (i := .lw 0 0 0) ⟨classOf_of_code h, rfl⟩
    exact ⟨hd, runWord_of_instr hd s⟩
  · have hd : decode w = .instr (.sw (rs1Of w) (rs2Of w) (immSOf w)) :=
      decode_of_selects (i := .sw 0 0 0) ⟨classOf_of_code h, rfl⟩
    exact ⟨hd, runWord_of_instr hd s⟩

end Sys2Proof

/-! ## The words without a row -/

namespace Sys2Proof.Machine

/-! ### Unknown opcodes -/

theorem decode_eq_unknownOpcode_iff {w : Word} : decode w = .unknownOpcode (opcodeOf w) ↔ classOf w = none := by
  constructor
  · intro h
    have hr := reads_decode w
    rw [h] at hr
    cases hr with
    | unknownOpcode hc => exact hc
  · intro h
    simp only [decode, h]

/-- The nine opcode values (R91). -/
theorem ofCode_eq_none_iff : ∀ op : BitVec 7, OpClass.ofCode op = none ↔
    op ∉ [0x03#7, 0x13#7, 0x17#7, 0x23#7, 0x33#7, 0x37#7, 0x63#7, 0x67#7, 0x6F#7] := by decide

/-- Every class is a 32-bit encoding: `inst[1:0]` is 11 (R91). -/
theorem low_bits_of_class : ∀ op : BitVec 7, op.extractLsb' 0 2 ≠ 0b11#2 → OpClass.ofCode op = none := by decide

theorem classOf_of_low_bits {w : Word} (h : w.extractLsb' 0 2 ≠ 0b11#2) : classOf w = none := by
  refine low_bits_of_class _ ?_
  rwa [opcodeOf, BitVec.extractLsb'_extractLsb'_of_le (by decide)]

theorem runWord_of_unknown {w : Word} (h : classOf w = none) (s : State) : runWord w s = execUnknownOpcode w s := by
  simp only [runWord, decode, h]

/-- Settles O7: the nine values decide which words these are, and the parameter what they do. -/
theorem unknownOpcodeFollowsItsParameter : Obligations.UnknownOpcodeFollowsItsParameter := by
  refine ⟨fun w => decode_eq_unknownOpcode_iff.trans (ofCode_eq_none_iff _),
    fun w h => decode_eq_unknownOpcode_iff.mpr (classOf_of_low_bits h), rfl, fun w s h => ?_⟩
  have hc : classOf w = none := decode_eq_unknownOpcode_iff.mp h
  rw [runWord_of_unknown hc, execUnknownOpcode]
  refine ⟨by simp [decodeRecord, hc], fun hp => by rw [hp], fun hp => ?_, fun hp => ?_⟩
  · rw [hp]
    exact ⟨_, rfl, pcEffect_commit s _⟩
  · rw [hp]
    exact ⟨_, Config.freeReg s.freeCount, rfl, ⟨rfl, rfl, rfl⟩, fun r hr => x_writeX_ne s _ hr, rfl, fun _ _ => rfl,
      rfl, rfl, rfl, rfl⟩

/-! ### Reserved ALU selectors -/

/-- R102 for class REG. -/
theorem reserved_reg_iff (w : Word) : AluOp.ofFunct (functOf .reg w) = none ↔
    altOf w = 1#1 ∧ funct3Of w ∈ [0b001#3, 0b010#3, 0b011#3, 0b100#3, 0b110#3, 0b111#3] := by
  simp only [functOf, selectorAlt]
  generalize altOf w = a
  generalize funct3Of w = f
  revert a f
  decide

/-- R102 for class IMM. -/
theorem reserved_imm_iff (w : Word) : AluOp.ofFunct (functOf .imm w) = none ↔ altOf w = 1#1 ∧ funct3Of w = 0b001#3 := by
  simp only [functOf, selectorAlt]
  generalize altOf w = a
  generalize funct3Of w = f
  revert a f
  decide

/-- R121: the selectors that name no operation. -/
theorem reserved_selectors :
    ∀ f : BitVec 4, AluOp.ofFunct f = none → f ∈ [9#4, 10#4, 11#4, 12#4, 14#4, 15#4] := by decide

theorem decode_reservedAlu_inv {w : Word} {rd : RegIdx} {f : BitVec 4} (h : decode w = .reservedAlu rd f) :
    rd = rdOf w ∧ AluOp.ofFunct f = none ∧ ∃ c, classOf w = some c ∧ (c = .reg ∨ c = .imm) ∧ f = functOf c w := by
  have hr := reads_decode w
  rw [h] at hr
  cases hr with
  | reservedAlu hc hreg hf => exact ⟨rfl, hf, _, hc, hreg, rfl⟩

theorem decode_reservedAlu_iff (w : Word) : (∃ rd f, decode w = .reservedAlu rd f) ↔
    classOf w = some .reg ∧ AluOp.ofFunct (functOf .reg w) = none ∨
    classOf w = some .imm ∧ AluOp.ofFunct (functOf .imm w) = none := by
  constructor
  · rintro ⟨rd, f, h⟩
    obtain ⟨-, hf, c, hc, rfl | rfl, rfl⟩ := decode_reservedAlu_inv h
    · exact .inl ⟨hc, hf⟩
    · exact .inr ⟨hc, hf⟩
  · rintro (⟨hc, hf⟩ | ⟨hc, hf⟩)
    · exact ⟨rdOf w, functOf .reg w, by simp only [decode, hc, decodeReg, hf]⟩
    · exact ⟨rdOf w, functOf .imm w, by simp only [decode, hc, decodeImm, hf]⟩

theorem runWord_of_reservedAlu {w : Word} {rd : RegIdx} {f : BitVec 4} (h : decode w = .reservedAlu rd f) (s : State) :
    runWord w s = execReservedAlu rd s := by
  simp only [runWord, h]

/-- Settles O9: class and selector decide which words these are; the effect is the commit of a free value. -/
theorem reservedAluWordsStillRetire : Obligations.ReservedAluWordsStillRetire := by
  refine ⟨fun w => ?_, fun w rd f s h => ?_⟩
  · rw [decode_reservedAlu_iff, reserved_reg_iff, reserved_imm_iff, classOf_eq_some_iff, classOf_eq_some_iff,
      and_left_comm, and_left_comm (b := altOf w = 1#1), ← and_or_left]
    rfl
  · obtain ⟨hrd, hf, -⟩ := decode_reservedAlu_inv h
    rw [runWord_of_reservedAlu h]
    exact ⟨hrd, reserved_selectors f hf, fun a b => by simp only [alu, hf], _, rfl,
      ⟨rfl, rfl, rfl⟩, fun r hr => x_writeX_ne s _ hr, fun _ _ => rfl, x_writeX_same s rd _, rfl, rfl, rfl, rfl, rfl⟩

/-! ### Reserved branch conditions -/

theorem ofCode_branch_eq_none_iff : ∀ f : BitVec 3, BranchCond.ofCode f = none ↔ f = 0b010#3 ∨ f = 0b011#3 := by decide

theorem decode_reservedBranch_iff {w : Word} {off : BitVec 13} : decode w = .reservedBranch off ↔
    off = immBOf w ∧ classOf w = some .branch ∧ BranchCond.ofCode (funct3Of w) = none := by
  constructor
  · intro h
    have hr := reads_decode w
    rw [h] at hr
    cases hr with
    | reservedBranch hc hf => exact ⟨rfl, hc, hf⟩
  · rintro ⟨rfl, hc, hf⟩
    simp only [decode, hc, decodeBranch, hf]

theorem runWord_of_reservedBranch {w : Word} {off : BitVec 13} (h : decode w = .reservedBranch off) (s : State) :
    runWord w s = execReservedBranch off s := by
  simp only [runWord, h]

/-- The next pc of a branch is one of its two (R172). -/
theorem committed_branchNextPc (taken : Bool) (off : BitVec 13) (s t : State) :
    Committed (s.pc + signedWord off.toInt) (t.retire (branchNextPc taken off s)) ∨
      Committed (s.pc + 4) (t.retire (branchNextPc taken off s)) := by
  cases taken with
  | false => exact .inr ⟨rfl, rfl, rfl⟩
  | true => exact .inl ⟨rfl, rfl, rfl⟩

/-- Settles O10: class and funct3 decide which words these are; the next pc is one of a branch's two. -/
theorem reservedBranchWordsStillRetire : Obligations.ReservedBranchWordsStillRetire := by
  refine ⟨fun w => ?_, fun w off s h => ?_⟩
  · simp only [decode_reservedBranch_iff, exists_eq_left, classOf_eq_some_iff, ofCode_branch_eq_none_iff]
    rfl
  · obtain ⟨hoff, -, hf⟩ := decode_reservedBranch_iff.mp h
    rw [runWord_of_reservedBranch h]
    exact ⟨hoff, fun a b => congrArg (Option.map _) hf, _, rfl, committed_branchNextPc _ off s _,
      fun _ => rfl, fun _ _ => rfl, rfl, rfl, rfl, rfl, rfl⟩

end Sys2Proof.Machine

/-! ## Pseudo-instructions -/

namespace Sys2Proof.Machine

theorem execAll_single (i : Instr) (s : State) : execAll [i] s = exec i s := by
  simp only [execAll]
  cases exec i s <;> rfl

theorem execAll_pair {i j : Instr} {s t : State} (h : exec i s = .next t) : execAll [i, j] s = exec j t := by
  rw [execAll, h]
  exact execAll_single j t

/-- One register written twice: the later value and the later pc stay. -/
theorem registerEffect_trans {rd : RegIdx} {v v' npc npc' : Word} {s t u : State} (h : RegisterEffect rd v npc s t)
    (h' : RegisterEffect rd v' npc' t u) : RegisterEffect rd v' npc' s u := by
  obtain ⟨-, -, hregs, hbytes, ⟨hp, htop, hinst, hi, hfree⟩, hd⟩ := h
  obtain ⟨hcommit, hx, hregs', hbytes', ⟨hp', htop', hinst', hi', hfree'⟩, hd'⟩ := h'
  exact ⟨hcommit, hx, fun r hr => (hregs' r hr).trans (hregs r hr), fun p a => (hbytes' p a).trans (hbytes p a),
    ⟨hp'.trans hp, htop'.trans htop, hinst'.trans hinst, hi'.trans hi, hfree'.trans hfree⟩, hd'.trans hd⟩

/-- What would be written to register 0 does not matter (R11). -/
theorem registerEffect_congr {rd : RegIdx} {v v' npc : Word} {s t : State} (h : RegisterEffect rd v npc s t)
    (hv : rd ≠ 0 → v = v') : RegisterEffect rd v' npc s t := by
  by_cases hrd : rd = 0
  · subst hrd; exact h
  · rwa [← hv hrd]

/-! ### Comparisons as arithmetic (R120, R170) -/

section
variable (a b : Word)

theorem aluCompute_slt : aluCompute .slt a b = if a.toInt < b.toInt then 1 else 0 := by
  simp [aluCompute, boolWord, BitVec.slt_eq_decide]

theorem aluCompute_sltu : aluCompute .sltu a b = if a.toNat < b.toNat then 1 else 0 := by
  simp [aluCompute, boolWord, BitVec.ult_eq_decide]

/-- `SEQZ`: only 0 is below 1. -/
theorem aluCompute_sltu_one : aluCompute .sltu a (sext12 1) = if a = 0 then 1 else 0 :=
  (aluCompute_sltu a _).trans (if_congr (Nat.lt_one_iff.trans (BitVec.toNat_inj (y := 0))) rfl rfl)

/-- `SNEZ`: 0 is below every other value. -/
theorem aluCompute_zero_sltu : aluCompute .sltu 0 a = if a ≠ 0 then 1 else 0 :=
  (aluCompute_sltu 0 a).trans (if_congr (Nat.pos_iff_ne_zero.trans (not_congr (BitVec.toNat_inj (y := 0)))) rfl rfl)

theorem condHolds_eq : condHolds .eq a b = decide (a = b) := rfl

theorem condHolds_ne : condHolds .ne a b = decide (a ≠ b) := by
  rw [Bool.eq_iff_iff]
  simp [condHolds]

theorem condHolds_lt : condHolds .lt a b = decide (a.toInt < b.toInt) := BitVec.slt_eq_decide

theorem condHolds_ge : condHolds .ge a b = decide (a.toInt ≥ b.toInt) := BitVec.sle_eq_decide

theorem condHolds_ltu : condHolds .ltu a b = decide (a.toNat < b.toNat) := BitVec.ult_eq_decide

theorem condHolds_geu : condHolds .geu a b = decide (a.toNat ≥ b.toNat) := BitVec.ule_eq_decide

end

/-! ### A 32-bit constant in two parts (R111) -/

theorem setWidth_sext12 (v : BitVec 12) : (sext12 v).setWidth 12 = v := by
  apply BitVec.eq_of_getLsbD_eq
  intro k hk
  simp only [sext12, BitVec.getLsbD_setWidth, BitVec.getLsbD_signExtend]
  simp [hk, show k < 32 by omega]

theorem lowPart_eq_setWidth (imm : Word) : lowPart imm = imm.setWidth 12 :=
  (BitVec.setWidth_eq_extractLsb' (by decide)).symm

/-- What is left of a constant without its sign-extended low part has 12 zeros below. -/
theorem sub_lowPart_low_bits (imm : Word) : (imm - sext12 (lowPart imm)).setWidth 12 = 0 := by
  have h := congrArg (BitVec.setWidth 12) (BitVec.sub_add_cancel imm (sext12 (lowPart imm)))
  rw [BitVec.setWidth_add _ _ (by decide), setWidth_sext12, lowPart_eq_setWidth] at h
  rw [lowPart_eq_setWidth]
  exact add_eq_right.mp h

theorem upper20_highPart (imm : Word) : upper20 (highPart imm) = imm - sext12 (lowPart imm) := by
  have hlow : (imm - sext12 (lowPart imm)).extractLsb' 0 12 = 0#12 :=
    (lowPart_eq_setWidth _).trans (sub_lowPart_low_bits imm)
  rw [upper20, ← hlow]
  exact BitVec.extractLsb'_append_extractLsb' (w := 20) (len := 12)

/-- The two parts make the constant. -/
theorem upper20_highPart_add (imm : Word) : upper20 (highPart imm) + sext12 (lowPart imm) = imm := by
  rw [upper20_highPart, BitVec.sub_add_cancel]

/-! ### The pseudo-instructions -/

section
variable {s : State} {i : Instr}

theorem single_registerEffect {rd : RegIdx} {v v' npc npc' : Word}
    (he : exec i s = .next ((s.writeX rd v').retire npc')) (hv : v' = v) (hn : npc' = npc) :
    ∃ t, execAll [i] s = .next t ∧ RegisterEffect rd v npc s t := by
  subst hv hn
  exact ⟨_, (execAll_single i s).trans he, registerEffect_commit s rd v' npc'⟩

theorem single_pcEffect {npc npc' : Word} (he : exec i s = .next (s.retire npc')) (hn : npc' = npc) :
    ∃ t, execAll [i] s = .next t ∧ PcEffect npc s t := by
  subst hn
  exact ⟨_, (execAll_single i s).trans he, pcEffect_commit s npc'⟩

/-- Two instructions that write the same register: the second one's value and pc stay. -/
theorem pair_registerEffect {j : Instr} {rd : RegIdx} {v w w' npc npc' : Word}
    (hi : exec i s = .next ((s.writeX rd v).retire s.pc4))
    (hj : exec j ((s.writeX rd v).retire s.pc4) = .next ((((s.writeX rd v).retire s.pc4).writeX rd w').retire npc'))
    (hw : rd ≠ 0 → w' = w) (hn : npc' = npc) : ∃ t, execAll [i, j] s = .next t ∧ RegisterEffect rd w npc s t := by
  subst hn
  exact ⟨_, (execAll_pair hi).trans hj,
    registerEffect_congr (registerEffect_trans (registerEffect_commit _ _ _ _) (registerEffect_commit _ _ _ _)) hw⟩

theorem single_branch {c : BranchCond} {rs1 rs2 : RegIdx} {off : BitVec 13} {taken : Bool}
    (he : exec i s = branchOn c rs1 rs2 off s) (ht : condHolds c (s.x rs1) (s.x rs2) = taken) :
    ∃ t, execAll [i] s = .next t ∧ PcEffect (if taken then s.pc + signedWord off.toInt else s.pc + 4) s t := by
  subst ht
  exact single_pcEffect he rfl

end

theorem add_sext12_zero (a : Word) : a + sext12 0 = a := BitVec.add_zero a

/-- LI of any constant: the upper part, then the low part added to it in the same register. -/
theorem liAny_effect (s : State) (rd : RegIdx) (imm : Word) :
    ∃ t, execAll (Pseudo.liAny rd imm).expand s = .next t ∧ RegisterEffect rd imm (s.pc + 8) s t := by
  refine pair_registerEffect (v := upper20 (highPart imm)) rfl rfl (fun hrd => ?_) (BitVec.add_assoc s.pc 4 4)
  rw [x_retire, x_writeX_same, if_neg hrd]
  exact upper20_highPart_add imm

/-- CALL of any offset: the target's upper part goes through the link register, which then takes the return address. -/
theorem call_effect (s : State) (off : Word) :
    ∃ t, execAll (Pseudo.call off).expand s = .next t ∧ RegisterEffect 1 (s.pc + 8) (s.pc + off) s t := by
  refine pair_registerEffect (v := pcUpper (highPart off) s) rfl rfl (fun _ => BitVec.add_assoc s.pc 4 4) ?_
  rw [jalrTarget, x_retire, x_writeX_same, if_neg (by decide), pcUpper, BitVec.add_assoc, upper20_highPart_add]

/-- Settles O28: each expansion is one commit, whose value, condition or target is what the name says, or (LI and
CALL) two commits to one register. -/
theorem pseudoInstructionsDoWhatTheySay : Obligations.PseudoInstructionsDoWhatTheySay := by
  intro s
  exact ⟨single_pcEffect rfl rfl, fun rd rs => single_registerEffect rfl (add_sext12_zero _) rfl,
    fun rd imm => single_registerEffect rfl (BitVec.zero_add _) rfl, liAny_effect s,
    fun rd rs => single_registerEffect rfl BitVec.xor_allOnes rfl,
    fun rd rs => single_registerEffect rfl (BitVec.zero_sub _) rfl,
    fun rd rs => single_registerEffect rfl (aluCompute_sltu_one _) rfl,
    fun rd rs => single_registerEffect rfl (aluCompute_zero_sltu _) rfl,
    fun rd rs => single_registerEffect rfl (aluCompute_slt _ _) rfl,
    fun rd rs => single_registerEffect rfl (aluCompute_slt _ _) rfl,
    fun rs rt off => ⟨single_branch rfl (condHolds_eq _ _), single_branch rfl (condHolds_ne _ _),
      single_branch rfl (condHolds_ge _ _), single_branch rfl (condHolds_ge _ _),
      single_branch rfl (condHolds_lt _ _), single_branch rfl (condHolds_lt _ _),
      single_branch rfl (condHolds_lt _ _), single_branch rfl (condHolds_ge _ _),
      single_branch rfl (condHolds_ltu _ _), single_branch rfl (condHolds_geu _ _)⟩,
    fun off => single_pcEffect rfl rfl,
    fun off => single_registerEffect rfl rfl rfl,
    fun rs => single_pcEffect rfl (add_sext12_zero _),
    fun rs => single_registerEffect rfl rfl (add_sext12_zero _),
    single_pcEffect rfl (add_sext12_zero _), call_effect s⟩

end Sys2Proof.Machine

/-! ## Bounded runs of ticks -/

namespace Sys2Proof.Machine

/-- Within `n` ticks, and after one at least, the clocked run answers as `P` says (R265). -/
def TicksWithin (P : Outcome → Prop) (n : Nat) (s : State) : Prop := ∃ k, 0 < k ∧ k ≤ n ∧ P (ticks k s)

/-- The answer is a state just after a commit, at an instruction boundary (R204, R206). -/
def AtRetirement (o : Outcome) : Prop := ∃ t, o = .next t ∧ t.retired = true ∧ t.atBoundary = true

theorem ticks_succ {s t : State} (n : Nat) (h : tick false s = .next t) : ticks (n + 1) s = ticks n t := by
  simp only [ticks, List.replicate_succ, runTicks, h]

theorem ticks_one (s : State) : ticks 1 s = tick false s := by
  simp only [ticks, List.replicate_succ, List.replicate_zero, runTicks]
  cases tick false s <;> rfl

section
variable {P : Outcome → Prop} {s t : State}

theorem ticksWithin_one (h : P (tick false s)) : TicksWithin P 1 s :=
  ⟨1, Nat.one_pos, Nat.le_refl 1, (ticks_one s).symm ▸ h⟩

theorem ticksWithin_succ {n : Nat} (h : tick false s = .next t) (ht : TicksWithin P n t) : TicksWithin P (n + 1) s := by
  obtain ⟨k, -, hk, hP⟩ := ht
  exact ⟨k + 1, Nat.succ_pos k, Nat.succ_le_succ hk, (ticks_succ k h).symm ▸ hP⟩

theorem ticksWithin_mono {m n : Nat} (hmn : m ≤ n) (h : TicksWithin P m s) : TicksWithin P n s := by
  obtain ⟨k, hpos, hk, hP⟩ := h
  exact ⟨k, hpos, hk.trans hmn, hP⟩

end

section
variable {P : Outcome → Prop} {n : Nat} {s : State}

/-- From FETCH the word at the pc is latched within two ticks (R202); `P` is then reached from EXECUTE. -/
theorem ticksWithin_of_fetch (hc : s.coherent) (hf : s.fsm = .fetch)
    (h : ∀ t : State, t.fsm = .execute → t.inst = s.fetchWord → t.params = s.params → TicksWithin P n t) :
    TicksWithin P (n + 2) s := by
  have latched (u : State) (hu : u.fsm = .fetch) (ha : u.iPort.ack = true) (hw : u.iPort.rdata = s.fetchWord)
      (hp : u.params = s.params) : TicksWithin P (n + 1) u :=
    ticksWithin_succ (tick_fetch_latch u hu ha) (h _ rfl hw hp)
  cases ha : s.iPort.ack with
  | false => exact ticksWithin_succ (tick_fetch_wait s hf ha) (latched _ hf rfl rfl rfl)
  | true =>
    simp only [State.coherent, hf] at hc
    exact ticksWithin_mono (Nat.le_succ _) (latched s hf ha (hc.2 ha) rfl)

end

section
variable {s : State} {r : DecodedInstruction}

/-- WRITE commits on the acknowledge, which is at most one tick away (R206, R50). -/
theorem retires_from_write (hf : s.fsm = .write) (hr : decodeRecord s.inst = some r) :
    TicksWithin AtRetirement 2 s := by
  have acknowledged (u : State) (hu : u.fsm = .write) (hru : decodeRecord u.inst = some r) (ha : u.dPort.ack = true) :
      TicksWithin AtRetirement 1 u :=
    ticksWithin_one ⟨_, tick_write_commit u hu r hru ha, rfl, rfl⟩
  cases ha : s.dPort.ack with
  | false => exact ticksWithin_succ (tick_write_wait s hf r hr ha) (acknowledged _ hf hr rfl)
  | true => exact ticksWithin_mono (by decide) (acknowledged s hf hr ha)

/-- EXECUTE commits at once, or goes to WRITE for a load or a store (R204, R205). -/
theorem retires_from_execute (hf : s.fsm = .execute) (hr : decodeRecord s.inst = some r) :
    TicksWithin AtRetirement 3 s := by
  have ht := tick_execute s hf
  simp only [hr] at ht
  cases hm : r.memOpEn with
  | true => exact ticksWithin_succ (ht.trans (if_pos hm)) (retires_from_write rfl hr)
  | false =>
    obtain ⟨hi, hd⟩ := commitRecord_ports r (writeBack r s.quiet) s.quiet
    refine ticksWithin_mono (by decide) (ticksWithin_one ⟨_, ht.trans (if_neg (by simp [hm])), rfl, ?_⟩)
    exact (atBoundary_iff _).mpr ⟨rfl, by rw [hi]; rfl, by rw [hd]; rfl⟩

/-- EXECUTE with a word of no class under `refuse` has no next tick (R105, D17). -/
theorem refused_from_execute (hf : s.fsm = .execute) (hr : decodeRecord s.inst = none)
    (hp : s.params.unknownOpcode = .refuse) : tick false s = .refused (.unknownOpcode s.inst) := by
  have ht := tick_execute s hf
  simp only [hr] at ht
  rw [ht, execUnknownOpcode, show s.quiet.params = s.params from rfl, hp]

end

theorem decodeRecord_eq_none {w : Word} (h : classOf w = none) : decodeRecord w = none := by simp [decodeRecord, h]

theorem exists_record_of_class {w : Word} (h : classOf w ≠ none) : ∃ r, decodeRecord w = some r := by
  obtain ⟨c, hc⟩ := Option.ne_none_iff_exists'.mp h
  exact ⟨_, decodeRecord_of_class hc⟩

/-- A word of a class retires within five ticks: two to fetch, one in EXECUTE, two in WRITE (R265). -/
theorem ticksWithin_retirement_of_class {s : State} (hc : s.coherent)
    (h : classOf (if s.fsm = .fetch then s.fetchWord else s.inst) ≠ none) : TicksWithin AtRetirement 5 s := by
  obtain ⟨r, hr⟩ := exists_record_of_class h
  cases hf : s.fsm with
  | fetch =>
    rw [if_pos hf] at hr
    exact ticksWithin_of_fetch hc hf fun t ht hinst _ => retires_from_execute ht (hinst.symm ▸ hr)
  | execute =>
    rw [if_neg (by simp [hf])] at hr
    exact ticksWithin_mono (by decide) (retires_from_execute hf hr)
  | write =>
    rw [if_neg (by simp [hf])] at hr
    exact ticksWithin_mono (by decide) (retires_from_write hf hr)

/-- Settles O57: a word of a class runs to its commit, and one of none is refused as soon as EXECUTE sees it; WRITE
has a load or a store latched. -/
theorem refusedOpcodeStopsTheClockedRun : Obligations.RefusedOpcodeStopsTheClockedRun := by
  intro s hc hp w
  refine ⟨fun h => ?_, fun h => ?_⟩
  · obtain ⟨n, hpos, hn, t, ht⟩ := ticksWithin_retirement_of_class hc h
    exact ⟨n, t, hpos, hn, ht⟩
  · have hr := decodeRecord_eq_none h
    have refused (t : State) (hf : t.fsm = .execute) (hinst : t.inst = w) (hpt : t.params = s.params) :
        TicksWithin (· = .refused (.unknownOpcode w)) 1 t := by
      rw [← hinst] at hr ⊢
      exact ticksWithin_one (refused_from_execute hf hr (hpt ▸ hp))
    cases hf : s.fsm with
    | fetch => exact ticksWithin_of_fetch hc hf fun t ht hinst hpt => refused t ht (hinst.trans (if_pos hf).symm) hpt
    | execute => exact ticksWithin_mono (by decide) (refused s hf (if_neg (by simp [hf])).symm rfl)
    | write =>
      have hm := latchedMemOp_of_coherent_write hc hf
      rw [latchedMemOp_of_unknown (by simpa [w, hf] using hr)] at hm
      cases hm

end Sys2Proof.Machine

/-! ## The register-register instructions -/

namespace Sys2Proof.Machine

/-! ### The ALU's operations as arithmetic (R120); the comparisons are `aluCompute_slt` and `aluCompute_sltu` -/

section
variable (a b : Word)

/-- The low five bits are the value modulo 32 (R122). -/
theorem shiftAmount_eq_mod : shiftAmount b = b.toNat % 32 := BitVec.extractLsb'_toNat 0 5 b

theorem aluCompute_add : aluCompute .add a b = BitVec.ofNat 32 (a.toNat + b.toNat) := rfl

/-- The difference may be negative: it is taken as an integer. -/
theorem aluCompute_sub : aluCompute .sub a b = signedWord ((a.toNat : Int) - b.toNat) := by
  rw [signedWord, Int.sub_eq_add_neg, BitVec.ofInt_add, BitVec.ofInt_neg, BitVec.ofInt_natCast, BitVec.ofInt_natCast,
    BitVec.ofNat_toNat, BitVec.ofNat_toNat, BitVec.setWidth_eq, BitVec.setWidth_eq, ← BitVec.sub_eq_add_neg]
  rfl

theorem toNat_aluCompute_sll : (aluCompute .sll a b).toNat = a.toNat * 2 ^ (b.toNat % 32) % 2 ^ 32 := by
  rw [aluCompute, BitVec.toNat_shiftLeft, shiftAmount_eq_mod, Nat.shiftLeft_eq]

theorem toNat_aluCompute_srl : (aluCompute .srl a b).toNat = a.toNat / 2 ^ (b.toNat % 32) := by
  rw [aluCompute, BitVec.toNat_ushiftRight, shiftAmount_eq_mod, Nat.shiftRight_eq_div_pow]

/-- The sign fill rounds towards minus infinity (R120), as integer division by a power of two does. -/
theorem toInt_aluCompute_sra : (aluCompute .sra a b).toInt = a.toInt / 2 ^ (b.toNat % 32) := by
  rw [aluCompute, BitVec.toInt_sshiftRight, shiftAmount_eq_mod, Int.shiftRight_eq_div_pow]
  rfl

/-! The results of the shifts as words. -/

theorem aluCompute_sll : aluCompute .sll a b = BitVec.ofNat 32 (a.toNat * 2 ^ (b.toNat % 32)) :=
  BitVec.eq_of_toNat_eq ((toNat_aluCompute_sll a b).trans (BitVec.toNat_ofNat _ _).symm)

theorem aluCompute_srl : aluCompute .srl a b = BitVec.ofNat 32 (a.toNat / 2 ^ (b.toNat % 32)) := by
  rw [← toNat_aluCompute_srl, BitVec.ofNat_toNat, BitVec.setWidth_eq]

theorem aluCompute_sra : aluCompute .sra a b = signedWord (a.toInt / 2 ^ (b.toNat % 32)) := by
  rw [← toInt_aluCompute_sra, signedWord, BitVec.ofInt_toInt]

end

/-! ### The ALU by its selector (R120, R121) -/

theorem toNat_signedWord (n : Int) : ((signedWord n).toNat : Int) = n % 2 ^ 32 := by
  rw [signedWord, BitVec.toNat_ofInt, Int.toNat_of_nonneg (Int.emod_nonneg n (by decide))]
  rfl

/-- The result for any selector that is an operation's, a literal one included. -/
theorem alu_result (a b : Word) (f : BitVec 4) (o : AluOp) (hf : f = o.funct) : (alu a b f).1 = aluCompute o a b := by
  rw [hf, alu_funct]

theorem alu_valid (a b : Word) (f : BitVec 4) : (alu a b f).2 = (AluOp.ofFunct f).isSome := by
  rw [alu]
  cases AluOp.ofFunct f <;> rfl

theorem alu_of_reserved {f : BitVec 4} (a b : Word) (hf : AluOp.ofFunct f = none) : alu a b f = (0, false) := by
  rw [alu, hf]

theorem isSome_ofFunct_of_named :
    ∀ f ∈ [0#4, 1#4, 2#4, 3#4, 4#4, 5#4, 6#4, 7#4, 8#4, 13#4], (AluOp.ofFunct f).isSome = true := by decide

theorem ofFunct_of_reserved : ∀ f ∈ [9#4, 10#4, 11#4, 12#4, 14#4, 15#4], AluOp.ofFunct f = none := by decide

/-- Settles O13: a named selector computes its operation, and the selectors fall into the named and the reserved. -/
theorem aluComputesItsTable : Obligations.AluComputesItsTable := by
  intro a b
  rw [alu_result a b 0 .add rfl, alu_result a b 8 .sub rfl, alu_result a b 1 .sll rfl, alu_result a b 2 .slt rfl,
    alu_result a b 3 .sltu rfl, alu_result a b 5 .srl rfl, alu_result a b 13 .sra rfl, alu_result a b 4 .xor rfl,
    alu_result a b 6 .or rfl, alu_result a b 7 .and rfl, aluCompute_sub]
  exact ⟨BitVec.toNat_add a b, toNat_signedWord _, toNat_aluCompute_sll a b, aluCompute_slt a b, aluCompute_sltu a b,
    fun _ => BitVec.getLsbD_xor, toNat_aluCompute_srl a b, toInt_aluCompute_sra a b, fun _ => BitVec.getLsbD_or,
    fun _ => BitVec.getLsbD_and, fun f hf => (alu_valid a b f).trans (isSome_ofFunct_of_named f hf),
    fun f hf => alu_of_reserved a b (ofFunct_of_reserved f hf)⟩

/-! ### What the templates of the rules ask of an instruction -/

theorem encodedAs_record {i : Instr} (hwf : i.wellFormed = true) : EncodedAs i (encode i) i.record :=
  ⟨rfl, decodeOfEncodeIsTheInstruction i hwf⟩

/-- Every instruction but LW and SW commits in EXECUTE, and the commit is its effect (R204, R215). -/
theorem retiresFromExecute {i : Instr} (hwf : i.wellFormed = true) (hm : i.record.memOpEn = false) :
    RetiresFromExecute i := by
  intro s ir dr hf hinst
  obtain ⟨hdec, hrec⟩ := decodeOfEncodeIsTheInstruction i hwf
  rw [← hinst] at hdec hrec
  calc coreTick ir dr s
      = .next (commitRecord i.record (writeBack i.record s) s) := by simp [coreTick, hf, hrec, hm]
    _ = runWord s.inst s := commitRecord_eq_runWord s _ hrec hm
    _ = exec i s := runWord_of_instr hdec s

/-! ### The ten instructions by their operation -/

/-- The register-register instruction of an operation (R123). -/
def regInstr : AluOp → RegIdx → RegIdx → RegIdx → Instr
  | .add  => .add
  | .sub  => .sub
  | .sll  => .sll
  | .slt  => .slt
  | .sltu => .sltu
  | .xor  => .xor
  | .srl  => .srl
  | .sra  => .sra
  | .or   => .or
  | .and  => .and

section
variable (op : AluOp) (rd rs1 rs2 : RegIdx)

theorem encode_regInstr : encode (regInstr op rd rs1 rs2) = encodeReg op rd rs1 rs2 := by cases op <;> rfl

theorem record_regInstr : (regInstr op rd rs1 rs2).record = recordReg op rd rs1 rs2 := by cases op <;> rfl

theorem wellFormed_regInstr : (regInstr op rd rs1 rs2).wellFormed = true := by cases op <;> rfl

theorem exec_regInstr (s : State) : exec (regInstr op rd rs1 rs2) s = regAlu op rd rs1 rs2 s := by cases op <;> rfl

end

/-- R123, the template of the ten rules: only the operation's result is each instruction's own. -/
theorem regRule_regInstr {op : AluOp} {result : Word → Word → Word} (hres : ∀ a b, aluCompute op a b = result a b) :
    RegRule (regInstr op) (funct7Of op) op.funct3 op.funct result := by
  intro rd rs1 rs2
  have hwf := wellFormed_regInstr op rd rs1 rs2
  have hrec := record_regInstr op rd rs1 rs2
  refine ⟨?_, retiresFromExecute hwf (by rw [hrec]; rfl), fun s => ?_⟩
  · have henc := encodedAs_record hwf
    rwa [encode_regInstr, hrec] at henc
  · rw [exec_regInstr, ← hres]
    exact regAlu_effect s op rd rs1 rs2

/-! ### The rules, each by its operation's arithmetic -/

/-- Settles O15: the template, with the sum and the difference modulo 2^32. -/
theorem addAndSubtract : Obligations.AddAndSubtract :=
  ⟨regRule_regInstr aluCompute_add, regRule_regInstr aluCompute_sub⟩

/-- Settles O16: the template, with the shifts as multiplication and division by a power of two. -/
theorem registerShifts : Obligations.RegisterShifts :=
  ⟨regRule_regInstr aluCompute_sll, regRule_regInstr aluCompute_srl, regRule_regInstr aluCompute_sra⟩

/-- Settles O17: the template, with the two comparisons in integers. -/
theorem registerCompares : Obligations.RegisterCompares :=
  ⟨regRule_regInstr aluCompute_slt, regRule_regInstr aluCompute_sltu⟩

/-- Settles O18: the template; the ALU's operations are the bitwise ones. -/
theorem registerLogic : Obligations.RegisterLogic :=
  ⟨regRule_regInstr (op := .xor) fun _ _ => rfl, regRule_regInstr (op := .or) fun _ _ => rfl,
    regRule_regInstr (op := .and) fun _ _ => rfl⟩

end Sys2Proof.Machine

/-! ## The register-immediate instructions -/

namespace Sys2Proof.Machine

/-! ### What the nine instructions have in common (R140) -/

/-- `i` performs `op` on `x[rs1]` and the immediate value `v` (R140), and `w` is its canonical word. -/
structure ImmediateForm (i : Instr) (w : Word) (op : AluOp) (rd rs1 : RegIdx) (v : Word) : Prop where
  wellFormed : i.wellFormed = true
  encode_eq  : encode i = w
  record_eq  : i.record = recordImm op rd rs1 v
  exec_eq    : ∀ s, exec i s = immAlu op rd rs1 v s

/-- Encoding, retirement and effect, for a shift and for the others alike. -/
theorem ImmediateForm.rule {i : Instr} {w v : Word} {op : AluOp} {rd rs1 : RegIdx} {result : Word → Word}
    (h : ImmediateForm i w op rd rs1 v) (hres : ∀ a, aluCompute op a v = result a) :
    EncodedAs i w (recordImm op rd rs1 v) ∧ RetiresFromExecute i ∧
      ∀ s, ∃ t, exec i s = .next t ∧ RegisterEffect rd (result (s.x rs1)) (s.pc + 4) s t := by
  refine ⟨?_, retiresFromExecute h.wellFormed (by rw [h.record_eq]; rfl), fun s => ?_⟩
  · rw [← h.encode_eq, ← h.record_eq]
    exact encodedAs_record h.wellFormed
  · rw [h.exec_eq, ← hres]
    exact immAlu_effect s op rd rs1 v

/-! ### The two templates; the form of an instruction holds by computation, so it is left to `rfl` -/

section
variable {op : AluOp}

/-- The template of the six that are no shift: the second operand is the sign-extended field (R83). -/
theorem immRule_of_form {mk : RegIdx → RegIdx → BitVec 12 → Instr} {result : Word → Word → Word}
    (hres : ∀ a b, aluCompute op a b = result a b)
    (hform : ∀ rd rs1 imm, ImmediateForm (mk rd rs1 imm) (encodeImm op rd rs1 imm) op rd rs1 (sext12 imm) := by
      exact fun _ _ _ => ⟨rfl, rfl, rfl, fun _ => rfl⟩) : ImmRule mk op.funct3 op.funct result :=
  fun rd rs1 imm => (hform rd rs1 imm).rule (hres · (sext12 imm))

theorem zext5_eq_ofNat (shamt : BitVec 5) : zext5 shamt = BitVec.ofNat 32 shamt.toNat :=
  (BitVec.ofNat_toNat 32 shamt).symm

/-- A shift by the extended shift amount is one by the shift amount: it is below 32 (R88). -/
theorem toNat_zext5_mod (shamt : BitVec 5) : (zext5 shamt).toNat % 32 = shamt.toNat := by
  rw [zext5, BitVec.toNat_setWidth_of_le (by decide), Nat.mod_eq_of_lt shamt.isLt]

/-- The template of the three shifts: the second operand is the shift amount (R88, D20). -/
theorem shiftRule_of_form {mk : RegIdx → RegIdx → BitVec 5 → Instr} {result : Word → Nat → Word}
    (hres : ∀ a b, aluCompute op a b = result a (b.toNat % 32))
    (hform : ∀ rd rs1 shamt, ImmediateForm (mk rd rs1 shamt) (encodeShift op rd rs1 shamt) op rd rs1 (zext5 shamt) := by
      exact fun _ _ _ => ⟨rfl, rfl, rfl, fun _ => rfl⟩) :
    ShiftRule mk (funct7Of op) op.funct3 op.funct result := by
  intro rd rs1 shamt
  rw [← zext5_eq_ofNat]
  exact (hform rd rs1 shamt).rule fun a => by rw [hres, toNat_zext5_mod]

end

/-! ### The rules, each by its operation's arithmetic -/

/-- Settles O19: the template, with the sum modulo 2^32 and the bitwise operations. -/
theorem immediateAddAndLogic : Obligations.ImmediateAddAndLogic :=
  ⟨immRule_of_form (op := .add) aluCompute_add,
    immRule_of_form (op := .xor) fun _ _ => rfl,
    immRule_of_form (op := .or) fun _ _ => rfl,
    immRule_of_form (op := .and) fun _ _ => rfl⟩

/-- Settles O20: the template, with the two comparisons in integers. -/
theorem immediateCompares : Obligations.ImmediateCompares :=
  ⟨immRule_of_form (op := .slt) aluCompute_slt,
    immRule_of_form (op := .sltu) aluCompute_sltu⟩

/-- The word beside SLLI (R102): `inst[30]` enters the selector, as for every shift, and makes it the reserved 9. -/
theorem decode_of_alternate_slli {w : Word} (hclass : classOf w = some .imm) (hfunct3 : funct3Of w = 0b001#3)
    (halt : altOf w = 1#1) : decode w = .reservedAlu (rdOf w) 9 := by
  have hselector : functOf .imm w = 9 := by simp [functOf, selectorAlt, isShiftFunct3, hfunct3, halt]
  obtain ⟨rd, f, hdecode⟩ := (decode_reservedAlu_iff w).2 (.inr ⟨hclass, (reserved_imm_iff w).2 ⟨halt, hfunct3⟩⟩)
  obtain ⟨hrd, -, c, hc, -, hf⟩ := decode_reservedAlu_inv hdecode
  cases hclass.symm.trans hc
  rw [hdecode, hrd, hf, hselector]

/-- Settles O21: the template, with the shifts as multiplication and division by a power of two; and the reserved word. -/
theorem immediateShifts : Obligations.ImmediateShifts :=
  ⟨shiftRule_of_form (op := .sll) aluCompute_sll,
    shiftRule_of_form (op := .srl) aluCompute_srl,
    shiftRule_of_form (op := .sra) aluCompute_sra,
    fun _ hop hfunct3 halt => decode_of_alternate_slli (classOf_of_code hop) hfunct3 halt⟩

end Sys2Proof.Machine

/-! ## LUI and AUIPC -/

namespace Sys2Proof.Machine

/-- The U immediate is the field times 2^12 (R86). -/
theorem upper20_eq_ofNat (imm20 : BitVec 20) : upper20 imm20 = BitVec.ofNat 32 (imm20.toNat * 2 ^ 12) := by
  have hfits : imm20.toNat * 2 ^ 12 < 2 ^ 32 := by omega
  apply BitVec.eq_of_toNat_eq
  rw [upper20, BitVec.toNat_append, BitVec.toNat_ofNat _ 32, Nat.mod_eq_of_lt hfits, Nat.shiftLeft_eq]
  exact Nat.or_zero _

/-- AUIPC's sum modulo 2^32 (R156): the field fills the upper 20 bits. -/
theorem pcUpper_eq_ofNat (imm20 : BitVec 20) (s : State) :
    pcUpper imm20 s = BitVec.ofNat 32 (s.pc.toNat + imm20.toNat * 2 ^ 12) := by
  rw [pcUpper, upper20_eq_ofNat, BitVec.ofNat_add, BitVec.ofNat_toNat, BitVec.setWidth_eq]

/-- Encoding, retirement and effect of an instruction that commits `value s` to `rd` and goes to `pc + 4`. -/
theorem commitRule {i : Instr} {rd : RegIdx} {value : State → Word} (hwf : i.wellFormed = true)
    (hmem : i.record.memOpEn = false) (hexec : ∀ s, exec i s = .next ((s.writeX rd (value s)).retire s.pc4)) :
    EncodedAs i (encode i) i.record ∧ RetiresFromExecute i ∧
      ∀ s, ∃ t, exec i s = .next t ∧ RegisterEffect rd (value s) (s.pc + 4) s t :=
  ⟨encodedAs_record hwf, retiresFromExecute hwf hmem, fun s => ⟨_, hexec s, registerEffect_commit s rd (value s) s.pc4⟩⟩

/-- Settles O22: both instructions commit to `rd`, LUI the shifted field and AUIPC its sum with the pc. -/
theorem upperImmediates : Obligations.UpperImmediates := by
  intro rd imm20
  simp only [← pcUpper_eq_ofNat, ← upper20_eq_ofNat]
  constructor
  · exact commitRule (i := .lui rd imm20) (value := fun _ => upper20 imm20) rfl rfl fun _ => rfl
  · exact commitRule (i := .auipc rd imm20) (value := pcUpper imm20) rfl rfl fun _ => rfl

end Sys2Proof.Machine

/-! ## The jumps, and the next pc -/

namespace Sys2Proof.Machine

/-! ### JAL and JALR (R160, R161); a sign-extended field is by definition the word of the field's value -/

theorem jumpOffsetOk_iff {off : BitVec 21} : jumpOffsetOk off = true ↔ off.getLsbD 0 = false := by
  rw [jumpOffsetOk, Bool.not_eq_true']

theorem branchOffsetOk_iff {off : BitVec 13} : branchOffsetOk off = true ↔ off.getLsbD 0 = false := by
  rw [branchOffsetOk, Bool.not_eq_true']

/-- Settles O23: JAL commits the link; its encoding needs the even offset, its effect does not. -/
theorem jumpAndLink : Obligations.JumpAndLink := by
  intro rd off
  constructor
  · intro heven
    have hwf : (Instr.jal rd off).wellFormed = true := jumpOffsetOk_iff.mpr heven
    exact ⟨encodedAs_record hwf, retiresFromExecute hwf rfl⟩
  · exact fun s => ⟨_, rfl, registerEffect_commit s rd s.pc4 (jalTarget off s)⟩

/-- Settles O24: JALR commits the link, its target formed before the write; the opcode alone selects its row. -/
theorem jumpAndLinkRegister : Obligations.JumpAndLinkRegister := by
  intro rd rs1 imm
  have heffect (s : State) := registerEffect_commit s rd s.pc4 (jalrTarget rs1 imm s)
  have hselects {w : Word} (hop : w.extractLsb' 0 7 = 0b1100111#7) : Selects w (.jalr 0 0 0) :=
    ⟨classOf_of_code hop, rfl⟩
  exact ⟨encodedAs_record rfl, retiresFromExecute rfl rfl, fun s => ⟨_, rfl, heffect s⟩,
    fun _ hop => decode_of_selects (hselects hop)⟩

/-! ### The next pc of an instruction, by the itype of its record -/

theorem branchNextPc_cases (taken : Bool) (off : BitVec 13) (s : State) :
    branchNextPc taken off s = s.pc + 4 ∨ branchNextPc taken off s = s.pc + sext13 off := by
  cases taken with
  | false => exact .inl rfl
  | true => exact .inr rfl

/-- Where an instruction goes: on to `pc + 4` (R17), by its immediate from the pc (R160, R172), or by its immediate from
`x[rs1]` (R161). -/
theorem exec_pc_cases {i : Instr} {s t : State} (h : exec i s = .next t) :
    t.pc = s.pc + 4 ∨
    (i.record.itype ∈ [.j, .br] ∧ ∃ v, i.record.imm = some v ∧ t.pc = s.pc + v) ∨
    (i.record.itype = .jr ∧ ∃ rs1 v, i.record.rs1 = some rs1 ∧ i.record.imm = some v ∧ t.pc = s.x rs1 + v) := by
  cases i using instr_by_template with
  | reg i op rd rs1 b _ he | imm i op rd rs1 b _ he => rw [he] at h; cases h; exact .inl rfl
  | branch i c rs1 rs2 off hrec he =>
    rw [he] at h; cases h
    rw [hrec]
    exact (branchNextPc_cases _ off s).imp id fun ht => .inl ⟨by simp [recordBranch], _, rfl, ht⟩
  | lui | auipc | lw | sw => cases h; exact .inl rfl
  | jal => cases h; exact .inr (.inl ⟨by simp [Instr.record], _, rfl, rfl⟩)
  | jalr => cases h; exact .inr (.inr ⟨rfl, _, _, rfl, rfl, rfl⟩)

/-- Sign extension keeps bit 0. -/
theorem signExtend_bit_zero {n : Nat} (v : BitVec (n + 1)) : (v.signExtend 32).getLsbD 0 = v.getLsbD 0 := by
  rw [BitVec.getLsbD_signExtend]
  rfl

/-- The displacement of a well-formed JAL or branch is even (R85, R87). -/
theorem even_displacement {i : Instr} {v : Word} (hwf : i.wellFormed = true) (hi : i.record.itype ∈ [.j, .br])
    (hv : i.record.imm = some v) : v.getLsbD 0 = false := by
  cases i with
  | jal rd off =>
    cases hv
    exact (signExtend_bit_zero off).trans (jumpOffsetOk_iff.mp hwf)
  | beq _ _ off | bne _ _ off | blt _ _ off | bge _ _ off | bltu _ _ off | bgeu _ _ off =>
    cases hv
    exact (signExtend_bit_zero off).trans (branchOffsetOk_iff.mp hwf)
  | _ => simp [Instr.record, recordImm, recordReg] at hi

/-! ### The low bits of the next pc -/

/-- Nothing is carried into bit 0. -/
theorem getLsbD_zero_add_even (a : Word) {v : Word} (hv : v.getLsbD 0 = false) : (a + v).getLsbD 0 = a.getLsbD 0 := by
  rw [BitVec.getLsbD_add (by decide), BitVec.carry_zero, hv, Bool.xor_false, Bool.xor_false]

theorem low_bits_add_four (a : Word) : (a + 4).extractLsb' 0 2 = a.extractLsb' 0 2 := by
  rw [BitVec.extractLsb'_add (by decide)]
  exact BitVec.add_zero _

theorem exec_pc_of_fallthrough {i : Instr} {s t : State} (h : exec i s = .next t)
    (hi : i.record.itype ∉ [.j, .jr, .br]) : t.pc = s.pc + 4 := by
  simp only [List.mem_cons, List.not_mem_nil, or_false, not_or] at hi
  obtain ⟨hj, hjr, hbr⟩ := hi
  obtain hpc | ⟨hrel, -⟩ | ⟨hreg, -⟩ := exec_pc_cases h
  · exact hpc
  · simp [hj, hbr] at hrel
  · exact absurd hreg hjr

theorem exec_pc_bit_zero {i : Instr} {s t : State} (hwf : i.wellFormed = true) (h : exec i s = .next t)
    (hi : i.record.itype ≠ .jr) : t.pc.getLsbD 0 = s.pc.getLsbD 0 := by
  obtain hpc | ⟨hrel, v, hv, hpc⟩ | ⟨hreg, -⟩ := exec_pc_cases h
  · rw [hpc, getLsbD_zero_add_even s.pc (by decide)]
  · rw [hpc, getLsbD_zero_add_even s.pc (even_displacement hwf hrel hv)]
  · exact absurd hreg hi

/-- Settles O31: only JALR's target is not the pc and an even displacement. -/
theorem onlyJalrChangesTheLowestPcBit : Obligations.OnlyJalrChangesTheLowestPcBit := by
  intro i s t hwf h
  refine ⟨exec_pc_bit_zero hwf h, fun hi => ?_⟩
  have hpc := exec_pc_of_fallthrough h hi
  exact ⟨hpc, hpc ▸ low_bits_add_four s.pc⟩

end Sys2Proof.Machine

/-! ## The BranchUnit and the six branches -/

namespace Sys2Proof.Machine

/-! ### The BranchUnit by its code (R170, R171); the comparisons are `condHolds_eq` to `condHolds_geu` -/

theorem branchUnit_of_condHolds {c : BranchCond} {taken : Word → Word → Bool}
    (hcond : ∀ a b, condHolds c a b = taken a b) (a b : Word) : branchUnit a b c.code = some (taken a b) := by
  rw [branchUnit_code, hcond]

theorem branchUnit_of_reserved {f : BitVec 3} (a b : Word) (hf : f = 0b010#3 ∨ f = 0b011#3) : branchUnit a b f = none := by
  rw [branchUnit, (ofCode_branch_eq_none_iff f).mpr hf, Option.map_none]

/-- Settles O14: a code that names a condition decides its comparison, and the two others decide nothing. -/
theorem branchUnitDecidesItsTable : Obligations.BranchUnitDecidesItsTable := by
  intro a b
  exact ⟨branchUnit_of_condHolds condHolds_eq a b, branchUnit_of_condHolds condHolds_ne a b,
    branchUnit_of_condHolds condHolds_lt a b, branchUnit_of_condHolds condHolds_ge a b,
    branchUnit_of_condHolds condHolds_ltu a b, branchUnit_of_condHolds condHolds_geu a b,
    branchUnit_of_reserved a b (.inl rfl), branchUnit_of_reserved a b (.inr rfl)⟩

/-! ### The six branches by their condition -/

/-- The branch instruction of a condition (R172). -/
def branchInstr : BranchCond → RegIdx → RegIdx → BitVec 13 → Instr
  | .eq  => .beq
  | .ne  => .bne
  | .lt  => .blt
  | .ge  => .bge
  | .ltu => .bltu
  | .geu => .bgeu

section
variable (c : BranchCond) (rs1 rs2 : RegIdx) (off : BitVec 13)

theorem encode_branchInstr : encode (branchInstr c rs1 rs2 off) = encodeBranch c rs1 rs2 off := by cases c <;> rfl

theorem record_branchInstr : (branchInstr c rs1 rs2 off).record = recordBranch c rs1 rs2 off := by cases c <;> rfl

theorem wellFormed_branchInstr : (branchInstr c rs1 rs2 off).wellFormed = branchOffsetOk off := by cases c <;> rfl

theorem exec_branchInstr (s : State) : exec (branchInstr c rs1 rs2 off) s = branchOn c rs1 rs2 off s := by
  cases c <;> rfl

end

/-- R172, the template of the six rules: only the comparison is each branch's own. The encoding needs the even offset, the
effect does not. -/
theorem branchRule_branchInstr {c : BranchCond} {taken : Word → Word → Bool}
    (hcond : ∀ a b, condHolds c a b = taken a b) : BranchRule (branchInstr c) c.code taken := by
  intro rs1 rs2 off
  refine ⟨fun heven => ?_, fun s => ?_⟩
  · have hwf := (wellFormed_branchInstr c rs1 rs2 off).trans (branchOffsetOk_iff.mpr heven)
    have hrec := record_branchInstr c rs1 rs2 off
    have henc := encodedAs_record hwf
    rw [encode_branchInstr, hrec] at henc
    exact ⟨henc, retiresFromExecute hwf (by rw [hrec]; rfl)⟩
  · rw [exec_branchInstr, ← hcond]
    exact branchOn_effect s c rs1 rs2 off

/-- Settles O25: the template, with the six comparisons in integers. -/
theorem conditionalBranches : Obligations.ConditionalBranches :=
  ⟨branchRule_branchInstr condHolds_eq, branchRule_branchInstr condHolds_ne, branchRule_branchInstr condHolds_lt,
    branchRule_branchInstr condHolds_ge, branchRule_branchInstr condHolds_ltu, branchRule_branchInstr condHolds_geu⟩

end Sys2Proof.Machine

/-! ## LW and SW -/

namespace Sys2Proof.Machine

/-! ### The cycles of a data transaction (R205, R206) -/

/-- LW and SW alike: EXECUTE hands over to WRITE, which waits for the acknowledge and commits on it. -/
theorem coreTick_of_memOp {i : Instr} (hwf : i.wellFormed = true) (hm : i.record.memOpEn = true) {s : State}
    (ir dr : PortResponse) (hinst : s.inst = encode i) :
    (s.fsm = .execute → coreTick ir dr s = .next { s with fsm := .write, retired := false }) ∧
    (s.fsm = .write → dr.acknowledge = false → coreTick ir dr s = .next { s with retired := false }) ∧
    (s.fsm = .write → dr.acknowledge = true →
      coreTick ir dr s = .next (commitRecord i.record (if i.record.memOpStore then none else some dr.readData) s)) := by
  obtain ⟨-, hrec⟩ := decodeOfEncodeIsTheInstruction i hwf
  rw [← hinst] at hrec
  refine ⟨fun hf => ?_, fun hf ha => ?_, fun hf ha => ?_⟩
  · simp [coreTick, hf, hrec, hm]
  · simp [coreTick, hf, hrec, ha]
  · simp [coreTick, hf, hrec, ha]

/-! ### The bytes of a stored word, through either port -/

section
variable (s : State)

/-- Through the port that wrote: the value's bytes, least significant first (log entry 13). -/
theorem byteAt_memWrite_in (p : PortId) (b v : Word) {j : Nat} (hj : j < 4) :
    (s.memWrite p b v).byteAt p (4 * s.index b + j) = wordByte v j :=
  stores_byteAt_putWord_in s.stores p _ j v hj

/-- Through any port, below and above the word: the bytes as before (R45). -/
theorem byteAt_memWrite_beside (p q : PortId) (b v : Word) {a : Nat}
    (ha : a < 4 * s.index b ∨ 4 * s.index b + 4 ≤ a) : (s.memWrite p b v).byteAt q a = s.byteAt q a :=
  byteAt_memWrite_out s p q b v a (by omega)

end

section
variable {st : Stores}

/-- Under `split` no data write reaches the instruction port's store (R41). -/
theorem byteAt_instr_putWord_data_split (ht : st.topology = .split) (k : Nat) (v : Word) (a : Nat) :
    (st.putWord .data k v).byteAt .instr a = st.byteAt .instr a := by
  cases st with
  | unified => cases ht
  | split => rfl

/-- Under `unified` both ports reach the one store (R41). -/
theorem byteAt_instr_eq_data_of_unified (ht : st.topology = .unified) (a : Nat) :
    st.byteAt .instr a = st.byteAt .data a := by
  cases st with
  | unified => rfl
  | split => cases ht

end

/-! ### The rules; the sign-extended field is by definition the word of the field's value -/

/-- Settles O26: LW is the commit of a register write, from the state with the loaded word latched in the data port. -/
theorem loadWord : Obligations.LoadWord := by
  intro rd rs1 imm
  refine ⟨encodedAs_record (i := .lw rd rs1 imm) rfl, fun s => ?_, fun s ir dr hinst => ?_⟩
  · exact ⟨_, rfl, registerEffect_commit (s.latchData (s.memRead .data (effectiveAddress rs1 imm s))) rd _ s.pc4⟩
  · exact coreTick_of_memOp rfl rfl ir dr hinst

/-- Settles O27: SW is one word write through the data port, then a commit that writes no register. -/
theorem storeWord : Obligations.StoreWord := by
  intro rs1 rs2 imm
  refine ⟨encodedAs_record (i := .sw rs1 rs2 imm) rfl, ?_, fun s ir dr hinst => coreTick_of_memOp rfl rfl ir dr hinst⟩
  rintro s k rfl
  have htopology := topology_putWord s.stores .data (s.index (effectiveAddress rs1 imm s)) (s.x rs2)
  exact ⟨_, rfl, ⟨rfl, rfl, rfl⟩, fun _ => rfl,
    fun _ hj => byteAt_memWrite_in (s.latchData _) .data _ _ hj,
    fun p _ ha => byteAt_memWrite_beside (s.latchData _) .data p _ _ ha,
    fun ht => byteAt_instr_putWord_data_split ht _ _,
    fun ht => byteAt_instr_eq_data_of_unified (htopology.trans ht),
    ⟨rfl, htopology, rfl, rfl, rfl⟩, rfl⟩

/-- Settles O34: the LW reads, through the port the SW wrote by, the word of its own address. -/
theorem loadAfterStoreReturnsTheValue : Obligations.LoadAfterStoreReturnsTheValue := by
  intro s t u rs1 rs2 rd base imm off hrd hsw hlw
  cases hsw
  cases hlw
  rw [x_retire, x_writeX_same, if_neg hrd]
  exact memRead_memWrite (s.latchData _) .data (effectiveAddress base off s) (effectiveAddress rs1 imm s) (s.x rs2)

end Sys2Proof.Machine

/-! ## From any state to the end of the instruction -/

namespace Sys2Proof.Machine

/-- An instruction of `s` has ended in `t`: a boundary with the pulse up, and what is fixed for a run as before (R31, R215). -/
def EndsInstruction (s t : State) : Prop :=
  t.atBoundary = true ∧ t.retired = true ∧ t.params = s.params ∧ t.stores.topology = s.stores.topology

/-- Ticks to the commit at most, with a fetch that must wait and a load or store in it (R202 to R206, R215). -/
def State.ticksLeft (s : State) : Nat :=
  match s.fsm with
  | .fetch => if s.iPort.ack then 4 else 5
  | .execute => 3
  | .write => if s.dPort.ack then 1 else 2

theorem ticksLeft_bounds (s : State) : 0 < s.ticksLeft ∧ s.ticksLeft ≤ 5 := by
  unfold State.ticksLeft
  split
  case h_1 => split <;> decide
  case h_2 => decide
  case h_3 => split <;> decide

/-- The tick from `s` to `t` was no commit, and brought the commit nearer. -/
def NearerCommit (s t : State) : Prop :=
  t.atBoundary = false ∧ t.retired = false ∧ t.params = s.params ∧ t.stores.topology = s.stores.topology ∧
    t.ticksLeft < s.ticksLeft

/-- What every word's effect keeps to: the core back in FETCH with the pulse up, and parameters, topology, the instruction
port and the data port's acknowledge as before. -/
def Commits (s t : State) : Prop :=
  t.fsm = .fetch ∧ t.retired = true ∧ t.params = s.params ∧ t.stores.topology = s.stores.topology ∧ t.iPort = s.iPort ∧
    t.dPort.ack = s.dPort.ack

section
variable {s t : State}

theorem endsInstruction_of_commits (hi : s.iPort.ack = false) (hd : s.dPort.ack = false) (h : Commits s t) :
    EndsInstruction s t := by
  obtain ⟨hf, hret, hp, ht, hik, hdk⟩ := h
  exact ⟨(atBoundary_iff t).mpr ⟨hf, by rw [hik, hi], by rw [hdk, hd]⟩, hret, hp, ht⟩

theorem commits_of_unknown {w : Word} (h : execUnknownOpcode w s = .next t) : Commits s t := by
  obtain ⟨-, he⟩ | ⟨-, he⟩ | ⟨-, he⟩ := execUnknownOpcode_cases s w <;> cases he.symm.trans h <;>
    exact ⟨rfl, rfl, rfl, rfl, rfl, rfl⟩

theorem commits_of_exec {i : Instr} (h : exec i s = .next t) : Commits s t := by
  cases i using instr_by_template with
  | reg _ _ _ _ _ _ he | imm _ _ _ _ _ _ he | branch _ _ _ _ _ _ he =>
    rw [he] at h; cases h; exact ⟨rfl, rfl, rfl, rfl, rfl, rfl⟩
  | lui | auipc | jal | jalr | lw => cases h; exact ⟨rfl, rfl, rfl, rfl, rfl, rfl⟩
  | sw => cases h; exact ⟨rfl, rfl, rfl, topology_putWord _ _ _ _, rfl, rfl⟩

theorem commits_of_runWord {w : Word} (h : runWord w s = .next t) : Commits s t := by
  unfold runWord at h
  cases hdec : decode w <;> simp only [hdec] at h
  case instr i => exact commits_of_exec h
  case reservedAlu | reservedBranch => cases h; exact ⟨rfl, rfl, rfl, rfl, rfl, rfl⟩
  case unknownOpcode => exact commits_of_unknown h

theorem commits_commitRecord (d : DecodedInstruction) (wb : Option Word) (s : State) :
    Commits s (commitRecord d wb s) := by
  obtain ⟨hf, hret, hp, -, hm⟩ := commitRecord_frame d wb s
  obtain ⟨hi, hd⟩ := commitRecord_ports d wb s
  exact ⟨hf, hret, hp, by rw [hm], hi, by rw [hd]⟩

/-- A tick is the commit, which leaves both acknowledges down, or it brings the commit nearer. No coherence is asked of
`s`: an acknowledge that should not be up goes down with the tick (R50). -/
theorem endsInstruction_or_nearer_of_tickTo (h : TickTo s t) : EndsInstruction s t ∨ NearerCommit s t := by
  cases h with
  | fetchWait hf ha => exact .inr ⟨by simp [State.atBoundary], rfl, rfl, rfl, by simp [State.ticksLeft, hf, ha]⟩
  | fetchLatch hf ha => exact .inr ⟨rfl, rfl, rfl, rfl, by simp [State.ticksLeft, hf, ha]⟩
  | executeMemOp hf => exact .inr ⟨rfl, rfl, rfl, rfl, by simp [State.ticksLeft, hf, State.quiet]⟩
  | writeWait hf _ ha =>
    exact .inr ⟨by simp [State.atBoundary, hf], rfl, rfl, rfl, by simp [State.ticksLeft, hf, ha]⟩
  | unknownOpcode _ _ h => exact .inl (endsInstruction_of_commits (s := s.quiet) rfl rfl (commits_of_unknown h))
  | executeCommit => exact .inl (endsInstruction_of_commits (s := s.quiet) rfl rfl (commits_commitRecord _ _ _))
  | @writeCommit r =>
    obtain ⟨-, hret, hp, -, -⟩ := commitRecord_frame r (if r.memOpStore then none else some s.dPort.rdata) s
    refine .inl ⟨rfl, hret, hp, ?_⟩
    dsimp only
    split
    · exact topology_putWord _ _ _ _
    · rfl

/-- With fuel for the ticks that are left, the run to the boundary does not run out of it before the commit. -/
theorem endsInstruction_of_runToBoundary {fuel : Nat} (hfuel : s.ticksLeft ≤ fuel)
    (h : runToBoundary fuel s = .next t) : EndsInstruction s t := by
  induction fuel generalizing s with
  | zero =>
    obtain ⟨hpos, -⟩ := ticksLeft_bounds s
    exact absurd hpos (Nat.not_lt.mpr hfuel)
  | succ fuel ih =>
    rw [runToBoundary] at h
    cases hu : tick false s with
    | next u =>
      simp only [hu] at h
      obtain ⟨hb, hends⟩ | ⟨hb, -, hp, ht, hlt⟩ := endsInstruction_or_nearer_of_tickTo (tickTo_of_tick hu)
      · rw [if_pos hb] at h
        cases h
        exact ⟨hb, hends⟩
      · rw [if_neg (by simp [hb])] at h
        obtain ⟨hb', hret', hp', ht'⟩ := ih (Nat.le_of_lt_succ (hlt.trans_le hfuel)) h
        exact ⟨hb', hret', hp'.trans hp, ht'.trans ht⟩
    | fault r => simp [hu] at h
    | refused r => simp [hu] at h

end

/-- Settles O50: at a boundary the fetched word's effect ends there; elsewhere five ticks reach the commit. -/
theorem stepEndsAtABoundary : Obligations.StepEndsAtABoundary := by
  intro s t h
  unfold step at h
  split at h
  case isTrue hb =>
    obtain ⟨-, hi, hd⟩ := (atBoundary_iff s).mp hb
    exact endsInstruction_of_commits (s := s.latchFetch s.fetchWord) hi hd (commits_of_runWord h)
  case isFalse =>
    obtain ⟨-, hfive⟩ := ticksLeft_bounds s
    exact endsInstruction_of_runToBoundary hfive h

end Sys2Proof.Machine

/-! ## The core and its two ports -/

namespace Sys2Proof.Machine

/-! ### One cycle of the core -/

/-- Settles O41: the two answers in FETCH. -/
theorem fetchStateOfTheCore : Obligations.FetchStateOfTheCore := by
  intro s ir dr hf
  refine ⟨fun ha => ?_, fun ha => ?_⟩
  · simp only [coreTick, hf, ha, if_true]
  · simp [coreTick, hf, ha]

theorem exists_record_of_latchedMemOp {s : State} (hm : s.latchedMemOp = true) :
    ∃ r, decodeRecord s.inst = some r := by
  cases hr : decodeRecord s.inst with
  | none => simp [latchedMemOp_of_unknown hr] at hm
  | some r => exact ⟨r, rfl⟩

theorem coreTick_write_wait {s : State} {ir dr : PortResponse} (hf : s.fsm = .write) (hm : s.latchedMemOp = true)
    (ha : dr.acknowledge = false) : coreTick ir dr s = .next { s with retired := false } := by
  obtain ⟨r, hr⟩ := exists_record_of_latchedMemOp hm
  simp [coreTick, hf, hr, ha]

/-! ### What the core drives on the data port (R208) -/

theorem decodeRecord_of_decode {w : Word} {i : Instr} (h : decode w = .instr i) : decodeRecord w = some i.record := by
  have hr := reads_decode w
  rw [h] at hr
  cases hr with
  | instr hs hfields => rw [decodeRecord_of_selects hs, hfields]

section
variable {s : State} {rd rs1 rs2 : RegIdx} {imm : BitVec 12}

theorem aluOut_of_lw (h : decode s.inst = .instr (.lw rd rs1 imm)) :
    (aluOut (Instr.lw rd rs1 imm).record s).1 = effectiveAddress rs1 imm s := by
  have h1 : rs1Of s.inst = rs1 := rs1Of_of_record (decodeRecord_of_decode h) rfl
  simp [aluOut, operandA, operandB, Instr.record, State.rv1, h1, aluCompute, effectiveAddress]

theorem aluOut_of_sw (h : decode s.inst = .instr (.sw rs1 rs2 imm)) :
    (aluOut (Instr.sw rs1 rs2 imm).record s).1 = effectiveAddress rs1 imm s := by
  have h1 : rs1Of s.inst = rs1 := rs1Of_of_record (decodeRecord_of_decode h) rfl
  simp [aluOut, operandA, operandB, Instr.record, State.rv1, h1, aluCompute, effectiveAddress]

theorem rv2_of_sw (h : decode s.inst = .instr (.sw rs1 rs2 imm)) : s.rv2 = s.x rs2 :=
  congrArg s.x (rs2Of_of_record (decodeRecord_of_decode h) rfl)

theorem dRequest_of_decode {i : Instr} (hf : s.fsm = .write) (h : decode s.inst = .instr i) :
    s.dRequest = ⟨(aluOut i.record s).1, s.rv2, i.record.memOpStore, true, true⟩ := by
  simp only [State.dRequest, hf, decodeRecord_of_decode h]

end

/-- Settles O40: the idle requests are by definition; in WRITE the record of the latched word gives address and data. -/
theorem portRequestsOfEachState : Obligations.PortRequestsOfEachState := by
  intro s
  refine ⟨fun hf => ?_, fun hf => ?_, fun hf => ⟨?_, fun rd rs1 imm h => ?_, fun rs1 rs2 imm h => ?_⟩⟩
  · simp [State.iRequest, State.dRequest, hf, BusRequest.idle]
  · simp [State.iRequest, State.dRequest, hf, BusRequest.idle]
  · simp [State.iRequest, hf, BusRequest.idle]
  · rw [dRequest_of_decode hf h, aluOut_of_lw h]
    rfl
  · rw [dRequest_of_decode hf h, aluOut_of_sw h, rv2_of_sw h]
    rfl

/-! ### Cycles of waiting (R211) -/

section
variable {s : State}

/-- A core that every response leaves as it is but for the pulse is so left by any number of them. -/
theorem coreRun_of_waiting {responses : List (PortResponse × PortResponse)}
    (h : ∀ r ∈ responses, ∀ b, coreTick r.1 r.2 { s with retired := b } = .next { s with retired := false }) (b : Bool) :
    coreRun responses { s with retired := b } = .next { s with retired := b && responses.isEmpty } := by
  induction responses generalizing b with
  | nil => simp [coreRun]
  | cons r rest ih =>
    rw [List.forall_mem_cons] at h
    simpa [coreRun, h.1 b] using ih h.2 false

theorem coreRun_fetch_waiting {responses : List (PortResponse × PortResponse)} (hf : s.fsm = .fetch)
    (h : ∀ r ∈ responses, r.1.acknowledge = false) :
    coreRun responses s = .next { s with retired := s.retired && responses.isEmpty } :=
  coreRun_of_waiting (fun r hr b => (fetchStateOfTheCore { s with retired := b } r.1 r.2 hf).2 (h r hr)) s.retired

theorem coreRun_write_waiting {responses : List (PortResponse × PortResponse)} (hf : s.fsm = .write)
    (hm : s.latchedMemOp = true) (h : ∀ r ∈ responses, r.2.acknowledge = false) :
    coreRun responses s = .next { s with retired := s.retired && responses.isEmpty } :=
  coreRun_of_waiting (fun r hr b => coreTick_write_wait (s := { s with retired := b }) hf hm (h r hr)) s.retired

end

/-- Settles O43: with the pulse down a waiting cycle changes nothing at all. -/
theorem coreWaitsForTheAcknowledge : Obligations.CoreWaitsForTheAcknowledge := by
  intro s responses hret
  have hsame (b : Bool) : { s with retired := s.retired && b } = s := by rw [hret, Bool.false_and, ← hret]
  refine ⟨fun hf h => ?_, fun hf hm h => ?_⟩
  · rw [coreRun_fetch_waiting hf h, hsame]
  · rw [coreRun_write_waiting hf hm h, hsame]

/-! ### The core through a whole instruction (R215) -/

theorem coreRun_append {s t : State} {first second : List (PortResponse × PortResponse)}
    (h : coreRun first s = .next t) : coreRun (first ++ second) s = coreRun second t := by
  induction first generalizing s with
  | nil => cases h; rfl
  | cons r rest ih =>
    simp only [coreRun, List.cons_append] at h ⊢
    cases hc : coreTick r.1 r.2 s with
    | next u =>
      simp only [hc] at h ⊢
      exact ih h
    | fault f => simp [hc] at h
    | refused f => simp [hc] at h

theorem coreRun_cons {s t : State} {ir dr : PortResponse} {rest : List (PortResponse × PortResponse)}
    (h : coreTick ir dr s = .next t) : coreRun ((ir, dr) :: rest) s = coreRun rest t := by
  simp only [coreRun, h]

theorem coreRun_single {ir dr : PortResponse} (s : State) : coreRun [(ir, dr)] s = coreTick ir dr s := by
  simp only [coreRun]
  cases coreTick ir dr s <;> rfl

theorem memOp_cases {i : Instr} (hm : i.record.memOpEn = true) :
    (∃ rd rs1 imm, i = .lw rd rs1 imm) ∨ ∃ rs1 rs2 imm, i = .sw rs1 rs2 imm := by
  cases i using instr_by_template with
  | reg _ _ _ _ _ hr | imm _ _ _ _ _ hr | branch _ _ _ _ _ hr => rw [hr] at hm; cases hm
  | lui | auipc | jal | jalr => cases hm
  | lw => exact .inl ⟨_, _, _, rfl⟩
  | sw => exact .inr ⟨_, _, _, rfl⟩

/-- An instruction overwrites the FSM state and the pulse, and reads neither. -/
theorem exec_of_control (i : Instr) (s : State) (f : Fsm) (b : Bool) :
    exec i { s with fsm := f, retired := b } = exec i s := by
  cases i using instr_by_template with
  | reg _ _ _ _ _ _ he | imm _ _ _ _ _ _ he | branch _ _ _ _ _ _ he => rw [he]; rfl
  | lui | auipc | jal | jalr | lw | sw => rfl

/-- An instruction does not read the latch, and keeps it. -/
theorem exec_of_inst {i : Instr} {s t : State} (h : exec i s = .next t) (w : Word) :
    exec i { s with inst := w } = .next { t with inst := w } := by
  cases i using instr_by_template with
  | reg _ _ _ _ _ _ he | imm _ _ _ _ _ _ he | branch _ _ _ _ _ _ he => rw [he] at h ⊢; cases h; rfl
  | lui | auipc | jal | jalr | lw | sw => cases h; rfl

theorem exec_of_latched {i : Instr} {s t : State} (h : exec i s = .next t) (w : Word) (f : Fsm) (b : Bool) :
    exec i { s with inst := w, fsm := f, retired := b } = .next { t with inst := w } :=
  (exec_of_control i { s with inst := w } f b).trans (exec_of_inst h w)

/-- R204, R205: the commit of a load or a store with the word its `exec` leaves in the data port. -/
theorem commitRecord_of_memOp {i : Instr} {s t : State} (hm : i.record.memOpEn = true) (h : exec i s = .next t) :
    commitRecord i.record (if i.record.memOpStore then none else some t.dPort.rdata) s =
      { t with dPort := s.dPort, stores := s.stores } := by
  obtain ⟨rd, rs1, imm, rfl⟩ | ⟨rs1, rs2, imm, rfl⟩ := memOp_cases hm <;> cases h <;> rfl

section
variable {s : State} {i : Instr} {waitI : List (PortResponse × PortResponse)}

/-- FETCH with any waiting: the cycle after the last wait latches the word. -/
theorem coreRun_fetch (hf : s.fsm = .fetch) (hw : ∀ r ∈ waitI, r.1.acknowledge = false) (w : Word) (dr : PortResponse)
    (rest : List (PortResponse × PortResponse)) :
    coreRun (waitI ++ (⟨w, true⟩, dr) :: rest) s =
      coreRun rest { s with inst := w, fsm := .execute, retired := false } := by
  rw [coreRun_append (coreRun_fetch_waiting hf hw)]
  exact coreRun_cons ((fetchStateOfTheCore { s with retired := s.retired && waitI.isEmpty } ⟨w, true⟩ dr hf).1 rfl)

/-- EXECUTE and WRITE of a load or a store with any waiting: EXECUTE hands over, and the acknowledge commits. -/
theorem coreRun_memOp (hwf : i.wellFormed = true) (hm : i.record.memOpEn = true) (hf : s.fsm = .execute)
    (hinst : s.inst = encode i) {waitD : List (PortResponse × PortResponse)}
    (hw : ∀ r ∈ waitD, r.2.acknowledge = false) (any : PortResponse) (v : Word) :
    coreRun ((any, any) :: waitD ++ [(any, ⟨v, true⟩)]) s =
      .next (commitRecord i.record (if i.record.memOpStore then none else some v)
        { s with fsm := .write, retired := false }) := by
  have hlatched : ({ s with fsm := .write, retired := false } : State).latchedMemOp = true :=
    (latchedMemOp_of_record (hinst ▸ (decodeOfEncodeIsTheInstruction i hwf).2)).trans hm
  rw [List.cons_append, coreRun_cons ((coreTick_of_memOp hwf hm any any hinst).1 hf),
    coreRun_append (coreRun_write_waiting rfl hlatched hw), coreRun_single]
  exact (coreTick_of_memOp (s := { s with fsm := .write, retired := false }) hwf hm any ⟨v, true⟩ hinst).2.2 rfl rfl

end

/-- Settles O44: the waits change nothing but the pulse; then EXECUTE commits, or WRITE does on its acknowledge. -/
theorem coreToleratesAnyLatency : Obligations.CoreToleratesAnyLatency := by
  intro s i waitI waitD any t hf hwf hwI hwD h
  obtain ⟨hfetch, hret, -⟩ := commits_of_exec h
  refine ⟨fun hm => ⟨{ t with inst := encode i }, ?_, rfl, rfl, hfetch, hret, rfl⟩,
    fun hm => ⟨{ t with inst := encode i, dPort := s.dPort, stores := s.stores }, ?_, rfl, rfl, hfetch, hret, rfl⟩⟩
  · rw [coreRun_fetch hf hwI, coreRun_single, retiresFromExecute hwf hm _ any any rfl rfl, exec_of_latched h]
  · have hcommit := commitRecord_of_memOp hm (exec_of_latched h (encode i) .write false)
    rw [List.append_assoc, List.append_assoc]
    calc coreRun (waitI ++ ((⟨encode i, true⟩, any) :: (any, any) :: waitD ++ [(any, ⟨t.dPort.rdata, true⟩)])) s
        = coreRun ((any, any) :: waitD ++ [(any, ⟨t.dPort.rdata, true⟩)])
            { s with inst := encode i, fsm := .execute, retired := false } := coreRun_fetch hf hwI _ _ _
      _ = .next (commitRecord i.record (if i.record.memOpStore then none else some t.dPort.rdata)
            { s with inst := encode i, fsm := .write, retired := false }) :=
          coreRun_memOp hwf hm rfl rfl hwD any t.dPort.rdata
      _ = .next { t with inst := encode i, dPort := s.dPort, stores := s.stores } :=
          congrArg Host.Outcome.next hcommit

end Sys2Proof.Machine

/-! ## The clocked run and the step -/

namespace Sys2Proof.Machine

/-! ### The step at a boundary -/

theorem step_of_boundary {s : State} (hb : s.atBoundary = true) :
    step s = runWord s.fetchWord (s.latchFetch s.fetchWord) := by
  rw [step, if_pos hb, instructionStep]

theorem hostWord_toNat (w : Word) : hostWord 32 w.toNat = w := by
  rw [hostWord, Nat.mod_eq_of_lt w.isLt, BitVec.ofNat_toNat, BitVec.setWidth_eq]

/-- Settles O48: the step is by definition the effect of the fetched word, and the word is placed where the fetch reads. -/
theorem stepRunsTheDecodedInstruction : Obligations.StepRunsTheDecodedInstruction := by
  refine ⟨fun s i hb hdec => ?_, fun s i _ => ?_⟩
  · rw [step_of_boundary hb, runWord_of_instr hdec]
    rfl
  · rw [State.withFetchWord, hostWord_toNat]
    exact ⟨rfl, fetchWord_placeWord s (encode i)⟩

/-! ### Runs of ticks with nothing committed on the way -/

/-- `n` ticks from `s` answer `o`, and every earlier one was no commit: `retired` is 0, the state no boundary, and the pc, the
registers and the stores are those of `s`. -/
def CommitsAtTick (n : Nat) (s : State) (o : Outcome) : Prop :=
  ticks n s = o ∧ ∀ k, 0 < k → k < n → ∃ t, ticks k s = .next t ∧ t.retired = false ∧ t.pc = s.pc ∧ t.regs = s.regs ∧
    t.stores = s.stores ∧ t.atBoundary = false

section
variable {s t : State} {o : Outcome}

theorem commitsAtTick_one (h : tick false s = o) : CommitsAtTick 1 s o :=
  ⟨(ticks_one s).trans h, fun _ hpos hlt => by omega⟩

/-- One more tick in front that is no commit. -/
theorem commitsAtTick_succ {n : Nat} (h : tick false s = .next t) (hret : t.retired = false) (hrun : CommitsAtTick n t o) :
    CommitsAtTick (n + 1) s o := by
  obtain ⟨hn, hbefore⟩ := hrun
  obtain ⟨hpc, hregs, hstores⟩ := tickTo_frame_of_not_retired (tickTo_of_tick h) hret
  refine ⟨(ticks_succ n h).trans hn, fun k _ hlt => ?_⟩
  cases k with
  | zero => contradiction
  | succ k =>
    rw [ticks_succ k h]
    obtain rfl | hk := Nat.eq_zero_or_pos k
    · obtain ⟨-, hret', -⟩ | ⟨hb, -⟩ := endsInstruction_or_nearer_of_tickTo (tickTo_of_tick h)
      · simp [hret] at hret'
      · exact ⟨t, rfl, hret, hpc, hregs, hstores, hb⟩
    · obtain ⟨u, hu, hret', hpc', hregs', hstores', hb⟩ := hbefore k hk (Nat.lt_of_succ_lt_succ hlt)
      exact ⟨u, hu, hret', hpc'.trans hpc, hregs'.trans hregs, hstores'.trans hstores, hb⟩

end

/-! ### The ticks of a word by its class -/

theorem memOpEn_iff_class {w : Word} {r : DecodedInstruction} (hr : decodeRecord w = some r) :
    r.memOpEn = true ↔ classOf w = some .load ∨ classOf w = some .store := by
  obtain ⟨c, hc, rfl⟩ := Option.map_eq_some_iff.mp hr
  simp [recordOf, hc]

/-- A word of class LOAD is LW, one of class STORE is SW (R104). -/
theorem exists_memOp_of_class {w : Word} (h : classOf w = some .load ∨ classOf w = some .store) :
    ∃ i, decode w = .instr i ∧ i.record.memOpEn = true := by
  obtain h | h := h
  · exact ⟨.lw (rdOf w) (rs1Of w) (immIOf w), by simp only [decode, h], rfl⟩
  · exact ⟨.sw (rs1Of w) (rs2Of w) (immSOf w), by simp only [decode, h], rfl⟩

/-- A word's effect overwrites the FSM state and the pulse, and reads neither. -/
theorem runWord_of_control (w : Word) (s : State) (f : Fsm) (b : Bool) :
    runWord w { s with fsm := f, retired := b } = runWord w s := by
  unfold runWord
  cases decode w with
  | instr i => exact exec_of_control i s f b
  | reservedAlu | reservedBranch => rfl
  | unknownOpcode =>
    simp only [execUnknownOpcode]
    cases s.params.unknownOpcode <;> rfl

section
variable {s : State}

/-- EXECUTE with any word but a load or a store: the tick is the word's effect (R204; log entries 5, 10, 11, 12). -/
theorem tick_execute_eq_runWord (hf : s.fsm = .execute)
    (hc : ¬(classOf s.inst = some .load ∨ classOf s.inst = some .store)) : tick false s = runWord s.inst s.quiet := by
  rw [tick_execute s hf]
  cases hr : decodeRecord s.inst with
  | none => exact (runWord_of_unknown (Option.map_eq_none_iff.mp hr) s.quiet).symm
  | some r =>
    have hm : r.memOpEn = false := Bool.eq_false_iff.mpr (mt (memOpEn_iff_class hr).mp hc)
    simp only [hm, Bool.false_eq_true, if_false]
    exact commitRecord_eq_runWord s.quiet r hr hm

/-- WRITE with the acknowledge and the addressed word: the tick is the effect of the load or store (R206, R52). -/
theorem tick_write_eq_exec {i : Instr} (hf : s.fsm = .write) (hdec : decode s.inst = .instr i)
    (hm : i.record.memOpEn = true) (ha : s.dPort.ack = true)
    (hdata : s.dPort.rdata = s.memRead .data (aluOut i.record s).1) : tick false s = exec i s.quiet := by
  rw [tick_write_commit s hf _ (decodeRecord_of_decode hdec) ha, hdata]
  obtain ⟨rd, rs1, imm, rfl⟩ | ⟨rs1, rs2, imm, rfl⟩ := memOp_cases hm
  · rw [aluOut_of_lw hdec]
    rfl
  · rw [aluOut_of_sw hdec, rv2_of_sw hdec]
    rfl

/-- In WRITE a load or a store takes two ticks: one of waiting, after which the data port's `rdata` holds the word that `exec`
latches there, and the commit (R206). -/
theorem commitsAtTick_of_write {i : Instr} (hf : s.fsm = .write) (hdec : decode s.inst = .instr i)
    (hm : i.record.memOpEn = true) (ha : s.dPort.ack = false) : CommitsAtTick 2 s (exec i s.quiet) := by
  refine commitsAtTick_succ (tick_write_wait s hf i.record (decodeRecord_of_decode hdec) ha) rfl (commitsAtTick_one ?_)
  calc tick false { s with
          retired := false, iPort := ⟨false, s.iPort.rdata⟩, dPort := ⟨true, s.memRead .data (aluOut i.record s).1⟩ }
      = exec i { s.quiet with retired := false, dPort := ⟨false, s.memRead .data (aluOut i.record s).1⟩ } :=
        tick_write_eq_exec hf hdec hm rfl rfl
    _ = exec i s.quiet := by
        obtain ⟨rd, rs1, imm, rfl⟩ | ⟨rs1, rs2, imm, rfl⟩ := memOp_cases hm <;> rfl

/-- EXECUTE hands a load or a store over to WRITE in one tick (R205). -/
theorem commitsAtTick_of_memOp {i : Instr} (hf : s.fsm = .execute) (hdec : decode s.inst = .instr i)
    (hm : i.record.memOpEn = true) : CommitsAtTick 3 s (exec i s.quiet) := by
  have hhandover : tick false s = .next { s.quiet with fsm := .write, retired := false } := by
    rw [tick_execute s hf]
    simp only [decodeRecord_of_decode hdec, hm, if_true]
  rw [← exec_of_control i s.quiet .write false]
  exact commitsAtTick_succ hhandover rfl (commitsAtTick_of_write rfl hdec hm rfl)

/-! ### From a boundary -/

/-- The state in EXECUTE that the two ticks of a fetch lead to from a boundary (R202). -/
def State.fetched (s : State) : State :=
  { s.quiet.latchFetch s.fetchWord with fsm := .execute, retired := false }

theorem quiet_of_boundary (hb : s.atBoundary = true) : s.quiet = s := by
  obtain ⟨-, hi, hd⟩ := (atBoundary_iff s).mp hb
  calc s.quiet
      = { s with iPort := ⟨s.iPort.ack, s.iPort.rdata⟩, dPort := ⟨s.dPort.ack, s.dPort.rdata⟩ } := by
        rw [hi, hd, State.quiet]
    _ = s := rfl

theorem runWord_fetched (hb : s.atBoundary = true) : runWord s.fetchWord s.fetched = step s := by
  rw [State.fetched, runWord_of_control, quiet_of_boundary hb, step_of_boundary hb]

theorem commitsAtTick_of_fetched {n : Nat} {o : Outcome} (hb : s.atBoundary = true) (h : CommitsAtTick n s.fetched o) :
    CommitsAtTick (n + 2) s o := by
  obtain ⟨hf, hi, -⟩ := (atBoundary_iff s).mp hb
  exact commitsAtTick_succ (tick_fetch_wait s hf hi) rfl (commitsAtTick_succ (tick_fetch_latch _ hf rfl) rfl h)

end

/-- Settles O45: two ticks fetch; then EXECUTE commits the word's effect, or hands over to WRITE, which commits it. -/
theorem ticksReachTheStep : Obligations.TicksReachTheStep := by
  intro s hb n
  change CommitsAtTick n s (step s)
  rw [← runWord_fetched hb]
  by_cases hc : classOf s.fetchWord = some .load ∨ classOf s.fetchWord = some .store
  · obtain ⟨i, hdec, hm⟩ := exists_memOp_of_class hc
    rw [show n = 5 from if_pos hc, runWord_of_instr hdec]
    exact commitsAtTick_of_fetched hb (commitsAtTick_of_memOp (s := s.fetched) rfl hdec hm)
  · rw [show n = 3 from if_neg hc]
    exact commitsAtTick_of_fetched hb (commitsAtTick_one (tick_execute_eq_runWord (s := s.fetched) rfl hc))

end Sys2Proof.Machine

/-! ## No exceptions: what has a next state, and the one refusal -/

namespace Sys2Proof.Machine

/-- Settles O30, by the templates of the instruction rules: each of them is a commit, and only SW's goes through a store. -/
theorem everyInstructionCompletes : Obligations.EveryInstructionCompletes := by
  intro i s
  cases i using instr_by_template with
  | reg _ _ _ _ _ _ he | imm _ _ _ _ _ _ he | branch _ _ _ _ _ _ he =>
    rw [he]
    exact ⟨_, rfl, rfl, rfl, rfl, rfl, rfl, rfl, rfl⟩
  | lui | auipc | jal | jalr | lw => exact ⟨_, rfl, rfl, rfl, rfl, rfl, rfl, rfl, rfl⟩
  | sw => exact ⟨_, rfl, rfl, rfl, rfl, topology_putWord _ _ _ _, rfl, rfl, rfl⟩

section
variable {w : Word} {s : State}

theorem classOf_of_decode_unknownOpcode {op : BitVec 7} (h : decode w = .unknownOpcode op) : classOf w = none := by
  have hr := reads_decode w
  rw [h] at hr
  cases hr with
  | unknownOpcode hc => exact hc

theorem runWord_of_refused (h : s.params.unknownOpcode = .refuse ∧ classOf w = none) :
    runWord w s = .refused (.unknownOpcode w) := by
  rw [runWord_of_unknown h.2, execUnknownOpcode, h.1]

/-- Every other word retires: an instruction of the table and the reserved words always (R102, R103), a word of no class
under the two values of UNKNOWN_OPCODE that give it a result (R105). -/
theorem runWord_of_not_refused (h : ¬(s.params.unknownOpcode = .refuse ∧ classOf w = none)) :
    ∃ t, runWord w s = .next t := by
  cases hdec : decode w with
  | instr i =>
    obtain ⟨t, ht, -⟩ := everyInstructionCompletes i s
    exact ⟨t, (runWord_of_instr hdec s).trans ht⟩
  | reservedAlu => exact ⟨_, runWord_of_reservedAlu hdec s⟩
  | reservedBranch => exact ⟨_, runWord_of_reservedBranch hdec s⟩
  | unknownOpcode =>
    have hc := classOf_of_decode_unknownOpcode hdec
    rw [runWord_of_unknown hc]
    obtain ⟨hp, -⟩ | ⟨-, he⟩ | ⟨-, he⟩ := execUnknownOpcode_cases s w
    · exact absurd ⟨hp, hc⟩ h
    · exact ⟨_, he⟩
    · exact ⟨_, he⟩

/-! At a boundary the step is the effect of the fetched word. -/

theorem step_of_refused (hb : s.atBoundary = true)
    (h : s.params.unknownOpcode = .refuse ∧ classOf s.fetchWord = none) :
    step s = .refused (.unknownOpcode s.fetchWord) :=
  (step_of_boundary hb).trans (runWord_of_refused (s := s.latchFetch s.fetchWord) h)

theorem step_of_not_refused (hb : s.atBoundary = true)
    (h : ¬(s.params.unknownOpcode = .refuse ∧ classOf s.fetchWord = none)) : ∃ t, step s = .next t := by
  rw [step_of_boundary hb]
  exact runWord_of_not_refused h

end

/-- Settles O49: there is no fault to answer (R230), and a boundary's step has a next state or is the one refusal (R246). -/
theorem stepStopsOnlyOnARefusedOpcode : Obligations.StepStopsOnlyOnARefusedOpcode := by
  refine ⟨fun _ f => (nomatch f), fun s hb => ⟨?_, step_of_not_refused hb⟩, fun s r hb hr => ?_⟩
  · rintro ⟨t, ht⟩ h
    cases (step_of_refused hb h).symm.trans ht
  · by_cases h : s.params.unknownOpcode = .refuse ∧ classOf s.fetchWord = none
    · cases (step_of_refused hb h).symm.trans hr
      rfl
    · obtain ⟨t, ht⟩ := step_of_not_refused hb h
      cases ht.symm.trans hr

end Sys2Proof.Machine

/-! ## The printed words -/

namespace Sys2Proof

/-- Settles O1: the decoder evaluated at the nine words. -/
theorem printedWordsDecode : Obligations.PrintedWordsDecode := by
  unfold Obligations.PrintedWordsDecode
  decide

end Sys2Proof

/-! ## Construction and reset -/

namespace Sys2Proof.Machine

/-! ### The words of an image (R255) -/

/-! Image word `i` has the address `a + 4i`. -/

theorem add_ofNat_zero (a : Word) : a + BitVec.ofNat 32 (4 * 0) = a := BitVec.add_zero a

theorem add_four_add_ofNat (a : Word) (i : Nat) :
    a + 4 + BitVec.ofNat 32 (4 * i) = a + BitVec.ofNat 32 (4 * (i + 1)) := by
  rw [Nat.mul_succ, Nat.add_comm, BitVec.ofNat_add, BitVec.add_assoc]
  rfl

/-- The indices of an image's words follow each other, around the top of the address space too (R44). -/
theorem storeIndex_add_ofNat {bits : Nat} (hbits : bits ≤ 30) (a : Word) (i : Nat) :
    storeIndex bits (a + BitVec.ofNat 32 (4 * i)) = (a.toNat / 4 + i) % 2 ^ bits := by
  have hword : (a + BitVec.ofNat 32 (4 * i)).toNat / 4 = (a.toNat / 4 + i) % 2 ^ 30 := by
    rw [BitVec.toNat_add, BitVec.toNat_ofNat, Nat.add_mod_mod]
    omega
  rw [storeIndex, hword, Nat.mod_mod_of_dvd _ (Nat.pow_dvd_pow 2 hbits)]

/-- A later word of an image that fits the store has another index than the first (D8). -/
theorem storeIndex_ne_of_fits {bits i : Nat} (hbits : bits ≤ 30) (a : Word) (hpos : 0 < i) (hi : i < 2 ^ bits) :
    storeIndex bits a ≠ storeIndex bits (a + BitVec.ofNat 32 (4 * i)) := by
  intro h
  have hzero : 0 ≡ i [MOD 2 ^ bits] :=
    Nat.ModEq.add_left_cancel' (a.toNat / 4) (h.trans (storeIndex_add_ofNat hbits a i))
  exact hpos.ne (hzero.eq_of_lt_of_lt (Nat.two_pow_pos bits) hi)

section
variable {bits : Nat} {image : List Word} {address : Word} {st : Stores}

/-- Loading an image is a word write for each of its words: what every such write keeps, the loading keeps. -/
theorem loadImage_induction {motive : Stores → Prop} (start : motive st)
    (write : ∀ i (h : i < image.length) (st' : Stores), motive st' →
      motive (st'.putWord .instr (storeIndex bits (address + BitVec.ofNat 32 (4 * i))) image[i])) :
    motive (st.loadImage bits address image) := by
  induction image generalizing address st with
  | nil => exact start
  | cons w ws ih =>
    refine ih ?_ fun i hi st' h => ?_
    · rw [← add_ofNat_zero address]
      exact write 0 (Nat.succ_pos _) st start
    · rw [add_four_add_ofNat]
      exact write (i + 1) (by simpa using hi) st' h

theorem loadImage_wordAt_of_ne {k : Nat}
    (hk : ∀ i < image.length, k ≠ storeIndex bits (address + BitVec.ofNat 32 (4 * i))) :
    (st.loadImage bits address image).wordAt .instr k = st.wordAt .instr k :=
  loadImage_induction (motive := fun st' => st'.wordAt .instr k = st.wordAt .instr k) rfl fun i hi st' h => by
    rw [stores_wordAt_putWord, if_neg (hk i hi), h]

/-- In an image that fits the store no later word takes the place of the first. -/
theorem loadImage_wordAt_head (hbits : bits ≤ 30) {w : Word} {ws : List Word} (hfits : (w :: ws).length ≤ 2 ^ bits) :
    (st.loadImage bits address (w :: ws)).wordAt .instr (storeIndex bits address) = w := by
  have hlater (i : Nat) (hi : i < ws.length) :
      storeIndex bits address ≠ storeIndex bits (address + 4 + BitVec.ofNat 32 (4 * i)) := by
    rw [add_four_add_ofNat]
    exact storeIndex_ne_of_fits hbits address (Nat.succ_pos i) ((Nat.succ_lt_succ hi).trans_le hfits)
  rw [Stores.loadImage, loadImage_wordAt_of_ne hlater, stores_wordAt_putWord, if_pos rfl]

/-- An image that fits the store is read back whole. -/
theorem loadImage_wordAt (hbits : bits ≤ 30) (hfits : image.length ≤ 2 ^ bits) {i : Nat} (hi : i < image.length) :
    (st.loadImage bits address image).wordAt .instr (storeIndex bits (address + BitVec.ofNat 32 (4 * i))) = image[i] := by
  induction image generalizing address st i with
  | nil => contradiction
  | cons w ws ih =>
    cases i with
    | zero =>
      rw [add_ofNat_zero]
      exact loadImage_wordAt_head hbits hfits
    | succ i =>
      rw [← add_four_add_ofNat]
      exact ih (Nat.le_of_succ_le hfits) (Nat.lt_of_succ_lt_succ hi)

end

/-! ### What is listed where -/

theorem byte?_putWord_out (m : Memory) {k a : Nat} (v : Word) (h : a / 4 ≠ k) : (m.putWord k v).byte? a = m.byte? a := by
  simp only [Memory.putWord, byte?_putByte]
  have : a ≠ 4 * k ∧ a ≠ 4 * k + 1 ∧ a ≠ 4 * k + 2 ∧ a ≠ 4 * k + 3 := by omega
  simp [this]

theorem reach_instr_putWord (st : Stores) (k : Nat) (v : Word) :
    (st.putWord .instr k v).reach .instr = (st.reach .instr).putWord k v := by
  cases st <;> rfl

/-- Under `split` the instruction port's writes do not reach the data store (R41). -/
theorem reach_data_putWord_instr_split {st : Stores} (ht : st.topology = .split) (k : Nat) (v : Word) :
    (st.putWord .instr k v).reach .data = st.reach .data := by
  cases st with
  | unified => cases ht
  | split => rfl

theorem reach_empty (topology : Topology) (p : PortId) : (Stores.empty topology).reach p = [] := by
  cases topology <;> cases p <;> rfl

theorem loadImage_byte?_of_ne {bits : Nat} {image : List Word} {address : Word} {st : Stores} {a : Nat}
    (ha : ∀ i < image.length, a / 4 ≠ storeIndex bits (address + BitVec.ofNat 32 (4 * i))) :
    ((st.loadImage bits address image).reach .instr).byte? a = (st.reach .instr).byte? a :=
  loadImage_induction (motive := fun st' => (st'.reach .instr).byte? a = (st.reach .instr).byte? a) rfl
    fun i hi st' h => by rw [reach_instr_putWord, byte?_putWord_out _ _ (ha i hi), h]

theorem loadImage_reach_data_split (bits : Nat) (image : List Word) (address : Word) {st : Stores}
    (ht : st.topology = .split) :
    (st.loadImage bits address image).reach .data = st.reach .data :=
  (loadImage_induction (motive := fun st' => st'.topology = .split ∧ st'.reach .data = st.reach .data) ⟨ht, rfl⟩
    fun i _ st' ⟨ht', h⟩ => ⟨by rw [topology_putWord, ht'], by rw [reach_data_putWord_instr_split ht', h]⟩).2

/-- Settles O36: the words of an image that fits have indices of their own, and only those are written. -/
theorem imageIsLoadedAtTheResetAddress : Obligations.ImageIsLoadedAtTheResetAddress := by
  intro p topology image hfits hbits
  refine ⟨fun i hi => loadImage_wordAt hbits hfits hi, fun a ha => ?_, ?_, ?_⟩
  · exact (loadImage_byte?_of_ne ha).trans (by rw [reach_empty]; rfl)
  · rintro rfl
    exact loadImage_reach_data_split _ _ _ rfl
  · rintro w rest rfl
    exact loadImage_wordAt_head hbits hfits

/-! ### The state after construction (R29, R252) -/

theorem empty_stores_wf (bits : Nat) (topology : Topology) : (Stores.empty topology).wf bits := by
  have hempty : Memory.wf [] ∧ Memory.within bits [] := ⟨List.Pairwise.nil, nofun⟩
  cases topology with
  | unified => exact hempty
  | split => exact ⟨hempty, hempty⟩

/-- Settles O53: the registers are REG_INIT, the stores those of the loading, and both acknowledges are down in FETCH. -/
theorem constructionIsWellFormed : Obligations.ConstructionIsWellFormed := by
  refine ⟨fun p topology image hp => ⟨?_, rfl, coherent_of_acks_down rfl rfl nofun⟩, rfl, ?_⟩
  · obtain ⟨hlow, hhigh, hzero⟩ := hp
    exact ⟨⟨hlow, hhigh, hzero⟩, hzero, loadImage_wf image p.resetAddr _ (empty_stores_wf _ topology)⟩
  · exact ⟨reset_params_wf, rfl, reset_stores_wf _⟩

/-- Settles O54: the reset values, and the request of FETCH (R207). -/
theorem firstCycleAfterReset : Obligations.FirstCycleAfterReset :=
  fun _ _ _ => ⟨rfl, rfl, rfl, rfl, rfl, rfl, rfl, rfl⟩

/-! ### The reset input (R250, R251) -/

theorem x_of_ne_zero (s : State) {r : RegIdx} (h : r ≠ 0) : s.x r = s.regs[r] := if_neg h

/-- Settles O55: the tick is the assignment of the reset values, over the same stores. -/
theorem resetRestartsOverTheMemoryAsItIs : Obligations.ResetRestartsOverTheMemoryAsItIs := fun s =>
  ⟨s.applyReset, tick_rst s, rfl, rfl, rfl, rfl, rfl, x_zero _, fun _ h => x_of_ne_zero s.applyReset h, rfl,
    byteAt_applyReset s, rfl, rfl⟩

end Sys2Proof.Machine

/-! ## Liveness of the clocked run -/

namespace Sys2Proof.Machine

section
variable {s : State}

theorem exists_next_of_unknown (w : Word) (hp : s.params.unknownOpcode ≠ .refuse) :
    ∃ t, execUnknownOpcode w s = .next t := by
  obtain ⟨he, -⟩ | ⟨-, he⟩ | ⟨-, he⟩ := execUnknownOpcode_cases s w
  · exact absurd he hp
  · exact ⟨_, he⟩
  · exact ⟨_, he⟩

/-- The one thing that stops the clock is a refused opcode (R246, D17). -/
theorem exists_next_tick (hp : s.params.unknownOpcode ≠ .refuse) : ∃ t, tick false s = .next t := by
  have unknown : ∃ t, execUnknownOpcode s.inst s.quiet = .next t := exists_next_of_unknown (s := s.quiet) s.inst hp
  cases hf : s.fsm with
  | fetch =>
    cases ha : s.iPort.ack with
    | false => exact ⟨_, tick_fetch_wait s hf ha⟩
    | true => exact ⟨_, tick_fetch_latch s hf ha⟩
  | execute =>
    rw [tick_execute s hf]
    cases decodeRecord s.inst with
    | none => exact unknown
    | some r =>
      cases hm : r.memOpEn with
      | false => exact ⟨_, if_neg (by simp [hm])⟩
      | true => exact ⟨_, if_pos hm⟩
  | write =>
    cases hr : decodeRecord s.inst with
    | none => rwa [tick_write_unknown s hf hr]
    | some r =>
      cases ha : s.dPort.ack with
      | false => exact ⟨_, tick_write_wait s hf r hr ha⟩
      | true => exact ⟨_, tick_write_commit s hf r hr ha⟩

/-- Every tick is a commit or brings it nearer, so it comes within the ticks that are left. -/
theorem ticksWithin_ticksLeft {n : Nat} (hp : s.params.unknownOpcode ≠ .refuse) (hn : s.ticksLeft ≤ n) :
    TicksWithin AtRetirement n s := by
  induction n generalizing s with
  | zero =>
    obtain ⟨hpos, -⟩ := ticksLeft_bounds s
    exact absurd hpos (Nat.not_lt.mpr hn)
  | succ n ih =>
    obtain ⟨t, ht⟩ := exists_next_tick hp
    obtain ⟨hb, hret, -⟩ | ⟨-, -, hpt, -, hlt⟩ := endsInstruction_or_nearer_of_tickTo (tickTo_of_tick ht)
    · exact ticksWithin_mono (Nat.succ_pos n) (ticksWithin_one ⟨t, ht, hret, hb⟩)
    · exact ticksWithin_succ ht (ih (hpt ▸ hp) (Nat.le_of_lt_succ (hlt.trans_le hn)))

end

/-- Settles O46: at most five ticks are left in any state; coherence is not needed for it. -/
theorem everyCycleIsNearARetirement : Obligations.EveryCycleIsNearARetirement := by
  intro s _ hp
  obtain ⟨-, hfive⟩ := ticksLeft_bounds s
  obtain ⟨n, hpos, hn, t, ht⟩ := ticksWithin_ticksLeft hp hfive
  exact ⟨n, t, hpos, hn, ht⟩

end Sys2Proof.Machine
